-- ==== Sys2Proof/Word.lean ====
section
/-! DEFINITION. The words of the Frame Decoder (FD): a byte of the input buffer and a half byte of the header. -/

namespace Sys2Proof

/-- A byte, bit 0 the least significant (R10). -/
abbrev Byte := BitVec 8

/-- A 4-bit unsigned field of the header byte (R7, ID_BITS and LEN_BITS). -/
abbrev Nibble := BitVec 4

end Sys2Proof
end

