-- ==== Sys2Proof/Config.lean ====
section
/-! DEFINITION. What is fixed for the machine: the constants of R7, the enumerations and their numeric codes
(R24, R25, R30, R91, R92), what an input byte the host did not supply reads as, and the free values a reset leaves. -/

namespace Sys2Proof

/-- PSTATE, the scan state, in processing order (R25). Codes 6 and 7 cannot be written down (R89). -/
inductive PState where
  | seekPreambleHigh
  | seekPreambleLow
  | readHeader
  | readPayload
  | readChecksum
  | finished
  deriving DecidableEq, Repr, Inhabited

/-- The numeric code of a scan state (R92). -/
def PState.code : PState → BitVec 3
  | .seekPreambleHigh => 0
  | .seekPreambleLow => 1
  | .readHeader => 2
  | .readPayload => 3
  | .readChecksum => 4
  | .finished => 5

/-- PHASE, the operation phase (R24). Code 3 cannot be written down (R89). -/
inductive Phase where
  | idle
  | run
  | done
  deriving DecidableEq, Repr, Inhabited

/-- The numeric code of a phase (R92). -/
def Phase.code : Phase → BitVec 2
  | .idle => 0
  | .run => 1
  | .done => 2

/-- OUTCOME, the result of an operation (R30). Codes 5 to 7 cannot be written down (R89). -/
inductive FrameOutcome where
  | ok
  | notEnoughData
  | messageEmpty
  | wrongHeader
  | wrongChecksum
  deriving DecidableEq, Repr, Inhabited

/-- The numeric code of an outcome (R91). -/
def FrameOutcome.code : FrameOutcome → BitVec 3
  | .ok => 0
  | .notEnoughData => 1
  | .messageEmpty => 2
  | .wrongHeader => 3
  | .wrongChecksum => 4

namespace Config

/-- PREAMBLE_HI, the first preamble byte (R7, R82). -/
def preambleHi : Byte := 0x44

/-- PREAMBLE_LO, the second preamble byte (R7, R82). -/
def preambleLo : Byte := 0x43

/-- MIN_FRAME, the smallest LENGTH a scan is attempted for (R7). -/
def minFrame : Nat := 4

/-- CAPACITY, the number of payload cells (R7). -/
abbrev capacity : Nat := 15

/-- MAX_FRAME, the longest frame in bytes (R7, R83). -/
def maxFrame : Nat := 19

/-- What a byte of IN that the host did not write reads as: the spec gives none.
DESIGN CHOICE, unsafe: 0x00, see log 4. -/
def unsuppliedByte : Byte := 0

/-! The values a reset leaves in the registers R38 calls unspecified: free values, one for each reset of a
run (the argument counts the resets). They have no body, so nothing can be proved of them. See log 3. -/

/-- PRESENT after the n-th reset (R38): a free value, log 3. -/
opaque resetPresent : Nat → Bool
/-- LENGTH after the n-th reset (R38): a free value, log 3. -/
opaque resetLength : Nat → Nat
/-- OFFSET after the n-th reset (R38): a free value, log 3. -/
opaque resetOffset : Nat → Nat
/-- FSTART after the n-th reset (R38): a free value, log 3. -/
opaque resetFstart : Nat → Nat
/-- SUM after the n-th reset (R38): a free value, log 3. -/
opaque resetSum : Nat → Byte
/-- OUTCOME after the n-th reset (R38): a free value, log 3. -/
opaque resetOutcome : Nat → FrameOutcome
/-- IDENTIFIER after the n-th reset (R38): a free value, log 3. -/
opaque resetIdentifier : Nat → Nibble
/-- DATALENGTH after the n-th reset (R38): a free value, log 3. -/
opaque resetDataLength : Nat → Nibble
/-- PAYLOAD after the n-th reset (R38): a free value, log 3. -/
opaque resetPayload : Nat → Vector Byte capacity

end Config

end Sys2Proof
end

