-- ==== Sys2Proof/Machine/Operands.lean ====
section
/-! DEFINITION. The operand forms and the arithmetic of FD (R11, R84, R96, R142): fields of the header byte, addition
modulo 256, the sufficiency test and the additive checksum of a frame. -/

namespace Sys2Proof.Machine

/-- `lo4(b)`, bits 3:0 (R11, R84): the identifier field. -/
def lo4 (b : Byte) : Nibble := b.extractLsb' 0 4

/-- `hi4(b)`, bits 7:4 (R11, R84): the data length field. -/
def hi4 (b : Byte) : Nibble := b.extractLsb' 4 4

/-- The header byte N * 16 + i (R84). -/
def headerByte (len ident : Nibble) : Byte := len ++ ident

/-- `add8(a, b)`, addition modulo 256 (R11). -/
def add8 (a b : Byte) : Byte := a + b

/-- The running sum after the bytes of a list, added in order (R150, R161). -/
def addBytes (sum : Byte) : List Byte → Byte
  | [] => sum
  | b :: rest => addBytes (add8 sum b) rest

/-- The sufficiency test of R142 with h = `offset`: the bytes after the header number at least N + 1. -/
abbrev headerFits (length offset : Nat) (len : Nibble) : Prop :=
  length - offset - 1 ≥ len.toNat + 1

/-- The clamp of R151: never taken, since a 4-bit DATALENGTH is at most 15 (R9). -/
def clampLength (len : Nibble) : Nibble :=
  if len.toNat > Config.capacity then BitVec.ofNat 4 Config.capacity else len

/-- The length field of a payload: its number of bytes (R96). -/
def payloadLength (payload : List Byte) : Nibble := BitVec.ofNat 4 payload.length

/-- The checksum byte c of FRAME(i; p) (R96, R161). -/
def frameChecksum (ident : Nibble) (payload : List Byte) : Byte :=
  addBytes (add8 (add8 Config.preambleHi Config.preambleLo) (headerByte (payloadLength payload) ident)) payload

/-- FRAME(i; p), the bytes of a whole frame (R80, R96). -/
def frameBytes (ident : Nibble) (payload : List Byte) : List Byte :=
  [Config.preambleHi, Config.preambleLo, headerByte (payloadLength payload) ident] ++ payload
    ++ [frameChecksum ident payload]

end Sys2Proof.Machine
end

