-- ==== Sys2Proof/Syntax.lean ====
section
/-! DEFINITION. The instructions of FD: one constructor for each row of spec/opcode_table.json (R86, R110, R170, R81),
and what selects a row beside the bytes (R86, R113). -/

namespace Sys2Proof

/-- The steps of FD, one constructor per row of the opcode table. Operands are the bits the row reads. -/
inductive Instr where
  /-- SPH.MATCH: the byte 0x44 in state SPH (R130). -/
  | sphMatch
  /-- SPH.SKIP: any other byte in state SPH (R130). -/
  | sphSkip (b : Byte)
  /-- SPL.MATCH: the byte 0x43 in state SPL (R131). -/
  | splMatch
  /-- SPL.MISS: any other byte in state SPL (R131). -/
  | splMiss (b : Byte)
  /-- RH.ACCEPT: a header byte `LLLLIIII` whose frame fits the buffer (R140). -/
  | rhAccept (len ident : Nibble)
  /-- RH.UNDERFLOW: a header byte `LLLLIIII` whose frame does not fit (R140). -/
  | rhUnderflow (len ident : Nibble)
  /-- RP.COPY: the DATALENGTH payload bytes, lowest offset first (R150). -/
  | rpCopy (data : List Byte)
  /-- RC.MATCH: a checksum byte equal to the sum (R160). -/
  | rcMatch (c : Byte)
  /-- RC.MISMATCH: any other checksum byte (R160). -/
  | rcMismatch (c : Byte)
  /-- FIN: the terminal scan state, no byte (R163). -/
  | fin
  /-- DECODE: the host command with its two operands (R110, R93). -/
  | decode (present : Bool) (length : Nat)
  /-- FINALISE: the closing step, no byte (R170). -/
  | finalise
  /-- FRAME: the whole-frame pattern FRAME(i; p) (R81, R96). -/
  | frame (ident : Nibble) (payload : List Byte)
  deriving DecidableEq, Repr

/-- What the classification of a byte reads beside the byte (R86): the scan state, LENGTH and OFFSET for the
sufficiency test, DATALENGTH for the payload count, SUM for the checksum comparison. -/
structure ScanContext where
  pstate     : PState
  length     : Nat
  offset     : Nat
  dataLength : Nibble
  sum        : Byte
  deriving DecidableEq, Repr

/-- What a decoder faces: the host command with its operands, which have no encoding (R93); a scanning step
(R86, R113); the closing step (R113); or a whole frame (R81). -/
inductive Selector where
  | command (present : Bool) (length : Nat)
  | scan (ctx : ScanContext)
  | finalise
  | frame
  deriving DecidableEq, Repr

end Sys2Proof
end

