-- ==== Sys2Proof/WellFormed.lean ====
section
/-! DEFINITION. Which instruction terms stand for a row of the opcode table: the conditions of R86 that speak of the
operands alone. -/

namespace Sys2Proof

/-- The operand conditions of a row: SPH.SKIP is any byte other than 0x44, SPL.MISS any byte other than 0x43
(R86), and at most 15 payload bytes (R150, R80). -/
def Instr.wellFormed : Instr → Bool
  | .sphMatch => true
  | .sphSkip b => b != Config.preambleHi
  | .splMatch => true
  | .splMiss b => b != Config.preambleLo
  | .rhAccept _ _ => true
  | .rhUnderflow _ _ => true
  | .rpCopy data => decide (data.length ≤ Config.capacity)
  | .rcMatch _ => true
  | .rcMismatch _ => true
  | .fin => true
  | .decode _ _ => true
  | .finalise => true
  | .frame _ payload => decide (payload.length ≤ Config.capacity)

end Sys2Proof
end

