-- ==== Sys2Proof/Decode.lean ====
section
/-! DEFINITION. The decoder: total on any bytes, from what selects a row and the bytes at the cursor to an
instruction and the bytes left over (R86, R81); after it the encoder, and the opcode table's words. -/

namespace Sys2Proof

open Machine (lo4 hi4 headerByte headerFits clampLength frameBytes)

/-- One scanning row: the table of R86 read from PSTATE, the byte at the cursor and the context.
`none` only where the bytes end before the row does. -/
def decodeScan (c : ScanContext) (bytes : List Byte) : Option (Instr × List Byte) :=
  match c.pstate with
  | .seekPreambleHigh =>
    match bytes with
    | [] => none
    | b :: rest => some (if b = Config.preambleHi then .sphMatch else .sphSkip b, rest)
  | .seekPreambleLow =>
    match bytes with
    | [] => none
    | b :: rest => some (if b = Config.preambleLo then .splMatch else .splMiss b, rest)
  | .readHeader =>
    match bytes with
    | [] => none
    | b :: rest =>
      some (if headerFits c.length c.offset (hi4 b) then .rhAccept (hi4 b) (lo4 b)
        else .rhUnderflow (hi4 b) (lo4 b), rest)
  | .readPayload =>
    let n := (clampLength c.dataLength).toNat
    if n ≤ bytes.length then some (.rpCopy (bytes.take n), bytes.drop n) else none
  | .readChecksum =>
    match bytes with
    | [] => none
    | b :: rest => some (if b = c.sum then .rcMatch b else .rcMismatch b, rest)
  | .finished => some (.fin, bytes)

/-- A whole frame (R80, R81): the preamble, a header byte, as many payload bytes as its high nibble says, and the
right checksum byte. `none` where the bytes are no frame. -/
def decodeFrame : List Byte → Option (Instr × List Byte)
  | b0 :: b1 :: h :: rest =>
    let payload := rest.take (hi4 h).toNat
    let whole := frameBytes (lo4 h) payload
    let given := b0 :: b1 :: h :: rest
    if payload.length = (hi4 h).toNat ∧ given.take whole.length = whole then
      some (.frame (lo4 h) payload, given.drop whole.length)
    else none
  | _ => none

/-- The decoder. The host command and FINALISE take no bytes (R93, R170). -/
def decode (sel : Selector) (bytes : List Byte) : Option (Instr × List Byte) :=
  match sel with
  | .command present length => some (.decode present length, bytes)
  | .scan ctx => decodeScan ctx bytes
  | .finalise => some (.finalise, bytes)
  | .frame => decodeFrame bytes

/-- The bytes of an instruction, lowest offset first (R80, R84, R86, R96). DECODE, FIN and FINALISE have none. -/
def encode : Instr → List Byte
  | .sphMatch => [0x44]
  | .sphSkip b => [b]
  | .splMatch => [0x43]
  | .splMiss b => [b]
  | .rhAccept len ident => [headerByte len ident]
  | .rhUnderflow len ident => [headerByte len ident]
  | .rpCopy data => data
  | .rcMatch c => [c]
  | .rcMismatch c => [c]
  | .fin => []
  | .decode _ _ => []
  | .finalise => []
  | .frame ident payload => frameBytes ident payload

/-- Whether a selector is a scanning step in state `p` whose context meets `cond`. -/
def Selector.inState (sel : Selector) (p : PState) (cond : ScanContext → Bool) : Bool :=
  match sel with
  | .scan ctx => ctx.pstate == p && cond ctx
  | .command _ _ => false
  | .finalise => false
  | .frame => false

/-- The columns PSTATE and condition of R86's table, with the selectors of DECODE (R93), FINALISE (R113) and FRAME
(R81): whether `sel` selects the row of `i` with the operands of `i`. -/
def rowApplies (sel : Selector) : Instr → Bool
  | .sphMatch => sel.inState .seekPreambleHigh fun _ => true
  | .sphSkip b => sel.inState .seekPreambleHigh fun _ => b != Config.preambleHi
  | .splMatch => sel.inState .seekPreambleLow fun _ => true
  | .splMiss b => sel.inState .seekPreambleLow fun _ => b != Config.preambleLo
  | .rhAccept len _ => sel.inState .readHeader fun c => decide (headerFits c.length c.offset len)
  | .rhUnderflow len _ => sel.inState .readHeader fun c => !decide (headerFits c.length c.offset len)
  | .rpCopy data => sel.inState .readPayload fun c => data.length == (clampLength c.dataLength).toNat
  | .rcMatch b => sel.inState .readChecksum fun c => b == c.sum
  | .rcMismatch b => sel.inState .readChecksum fun c => b != c.sum
  | .fin => sel.inState .finished fun _ => true
  | .decode present length => sel == .command present length
  | .finalise => sel == .finalise
  | .frame _ payload => sel == .frame && decide (payload.length ≤ Config.capacity)

/-! The opcode table's words. A table word carries no PSTATE, so `tableState` fixes one for it (log 13). -/

/-- The bytes of a table word: byte k is bits 8k+7..8k of the `nbits` bits, the bits above them 0, and as many
bytes as the longest instruction takes. -/
def tableBytes (nbits w : Nat) : List Byte :=
  (List.range (max Config.maxFrame ((nbits + 7) / 8))).map fun k => BitVec.ofNat 8 (w % 2 ^ nbits / 2 ^ (8 * k))

/-- The scan state a table word is read in: SPL for a word that begins with 0x43, the byte SPL.MATCH fixes, and SPH,
the state every scan starts in, for any other (log 13). -/
def tableState (bytes : List Byte) : PState :=
  if bytes.head? = some Config.preambleLo then .seekPreambleLow else .seekPreambleHigh

/-- The selector of a table word: no bits, the host command with operands 0; 32 bits or more, a whole frame, whose
shortest pattern has 32 bits; else a scanning step (log 13). -/
def tableSelector (nbits : Nat) (bytes : List Byte) : Selector :=
  if nbits = 0 then .command false 0
  else if 32 ≤ nbits then .frame
  else .scan
    { pstate := tableState bytes, length := bytes.length, offset := 0, dataLength := 0, sum := 0 }

/-- The instruction the decoder reads from a word of spec/opcode_table.json. -/
def decodeTableWord (nbits w : Nat) : Option Instr :=
  (decode (tableSelector nbits (tableBytes nbits w)) (tableBytes nbits w)).map Prod.fst

end Sys2Proof
end

