-- ==== Sys2Proof/Machine/State.lean ====
section
/-! DEFINITION. The state of FD as plain data (R20), the host's side of it (R21, R50, R64), the reasons a step can
stop, and the state right after reset (R38, R210). -/

namespace Sys2Proof.Machine

/-- A byte space: offsets with their bytes, strictly rising, no entry equal to what an unlisted offset reads as. -/
abbrev Memory := List Host.Cell

/-- What the host does at one step (R64, R210, R110, R212). Log 5. -/
inductive HostAction where
  /-- Nothing: FD takes its enabled step. -/
  | pause
  /-- The reset input (R210, R211). -/
  | reset
  /-- The DECODE command with its operands (R110, R93). -/
  | decode (present : Bool) (length : Nat)
  /-- The host stores one byte into the input buffer IN (R50, R212). -/
  | writeInput (offset : Nat) (b : Byte)
  deriving DecidableEq, Repr

/-- Why the machine stops with a fault. -/
inductive Fault where
  /-- Raised by the fetch: a MemRead at an offset that does not exist, which R11 leaves undefined. No state that
  meets the range invariants of R34 raises it (R53). Safe: the machine stops where the spec says nothing. -/
  | readOutsideInput
  deriving DecidableEq, Repr

/-- Why a step has no meaning. -/
inductive Refusal where
  /-- Raised by exec for an instruction that has no meaning yet. Safe. -/
  | notModelled (mnemonic : String)
  /-- Raised by a meaning whose row R86 or R113 does not enable in this state: the spec gives it no transition
  there. `step` never raises it. Safe (log 10). -/
  | stepNotEnabled
  /-- Raised by the fetch where the decoder reads no instruction. `step` never raises it. Safe. -/
  | undecodable
  deriving DecidableEq, Repr

/-- The architectural state of FD (R20), and below it what stands for the host. -/
structure State where
  /-- PRESENT (R22). -/
  present    : Bool
  /-- LENGTH (R23), an unbounded natural number (R8, log 1). -/
  length     : Nat
  /-- PHASE (R24). -/
  phase      : Phase
  /-- PSTATE (R25). -/
  pstate     : PState
  /-- OFFSET, the cursor (R26). -/
  offset     : Nat
  /-- FSTART (R27). -/
  fstart     : Nat
  /-- SUM (R28). -/
  sum        : Byte
  /-- OUTCOME (R30). -/
  outcome    : FrameOutcome
  /-- IDENTIFIER (R31). -/
  identifier : Nibble
  /-- DATALENGTH (R33). -/
  dataLength : Nibble
  /-- PAYLOAD[0..14] (R35). -/
  payload    : Vector Byte Config.capacity
  /-- The contents of the host's input buffer IN (R21, R50): no register of FD. -/
  input      : Memory
  /-- The host's coming actions, oldest first; one is consulted at each step. The model's own (log 5). -/
  host       : List HostAction
  /-- How many resets have been applied: it indexes the free values of a reset. The model's own (log 3). -/
  resets     : Nat
  deriving DecidableEq, Repr

/-- The state after reset: PHASE = Idle and PSTATE = SPH (R38, R210).
DESIGN CHOICE, unsafe: every register R38 leaves unspecified is 0 here, see log 2; IN lists nothing, see log 4; the
host has no action pending. -/
def State.reset : State where
  present    := false
  length     := 0
  phase      := .idle
  pstate     := .seekPreambleHigh
  offset     := 0
  fstart     := 0
  sum        := 0
  outcome    := .ok
  identifier := 0
  dataLength := 0
  payload    := Vector.replicate Config.capacity 0
  input      := []
  host       := []
  resets     := 0

/-- What the outputs of FD tell the host: BUSY and DONE, and the Frame fields it may rely on (R32, R39, R173). -/
structure HostView where
  busy       : Bool
  done       : Bool
  outcome    : Option FrameOutcome
  identifier : Option Nibble
  dataLength : Option Nibble
  payload    : List Byte
  deriving DecidableEq, Repr

end Sys2Proof.Machine
end

