-- ==== Sys2Proof/Machine/Flags.lean ====
section
/-! DEFINITION. What is computed from and into the status of FD: the entry check (R111), the status levels (R32), the
outcome derivation (R170) and what the host may read (R173). -/

namespace Sys2Proof.Machine

/-- The entry check fails (R111): the input is absent or shorter than the minimum frame. -/
abbrev entryFails (present : Bool) (length : Nat) : Prop :=
  present = false ∨ length < Config.minFrame

/-- BUSY (R32). -/
def State.busy (s : State) : Bool := s.phase == .run

/-- DONE (R32). -/
def State.done (s : State) : Bool := s.phase == .done

/-- The outcome derived from the scan state reached and DATALENGTH (R170, R171). -/
def deriveOutcome (p : PState) (dataLength : Nibble) : FrameOutcome :=
  match p with
  | .seekPreambleHigh => .wrongHeader
  | .seekPreambleLow => .wrongHeader
  | .readHeader => .notEnoughData
  | .readPayload => .notEnoughData
  | .readChecksum => .wrongChecksum
  | .finished => if dataLength.toNat > 0 then .ok else .messageEmpty

/-- The outcomes under which the Frame's fields are valid (R173). -/
def framedOutcome : FrameOutcome → Bool
  | .ok => true
  | .messageEmpty => true
  | .notEnoughData => false
  | .wrongHeader => false
  | .wrongChecksum => false

/-- What the host may read (R39, R173, R216, R217): OUTCOME only when DONE, the fields only under Ok and MessageEmpty,
of PAYLOAD only the first DATALENGTH cells (log 18). -/
def State.hostView (s : State) : HostView :=
  let valid := s.done && framedOutcome s.outcome
  { busy := s.busy
    done := s.done
    outcome := if s.done then some s.outcome else none
    identifier := if valid then some s.identifier else none
    dataLength := if valid then some s.dataLength else none
    payload := if valid then s.payload.toList.take s.dataLength.toNat else [] }

end Sys2Proof.Machine
end

