-- ==== Sys2Proof/Machine/Ops.lean ====
section
/-! DEFINITION. The named operations the meanings are made of: the byte space, MemRead and the fetch of a step's bytes
(R50, R53, R60), MemWrite (R51), the cursor (R26), `abort_scan` (R115), `raise` (R11), reset (R210), and which row R113
selects. -/

namespace Sys2Proof.Machine

/-! ## The byte space -/

/-- The byte at an offset; an unlisted offset reads as `Config.unsuppliedByte` (log 4). -/
def Memory.read (m : Memory) (a : Nat) : Byte :=
  match m with
  | [] => Config.unsuppliedByte
  | (a', b) :: rest => if a = a' then b else Memory.read rest a

/-- Put a cell in front, unless it holds what an unlisted offset reads as. -/
def Memory.put (a : Nat) (v : Byte) (rest : Memory) : Memory :=
  if v = Config.unsuppliedByte then rest else (a, v) :: rest

/-- Store one byte, keeping the canonical form. -/
def Memory.write (m : Memory) (a : Nat) (v : Byte) : Memory :=
  match m with
  | [] => Memory.put a v []
  | (a', b) :: rest =>
    if a < a' then Memory.put a v ((a', b) :: rest)
    else if a = a' then Memory.put a v rest
    else (a', b) :: Memory.write rest a v

/-- Store a list of bytes at rising offsets. -/
def Memory.writeBytes (m : Memory) (a : Nat) : List Byte → Memory
  | [] => m
  | b :: rest => Memory.writeBytes (m.write a b) (a + 1) rest

/-- The canonical form from offset `lo` on. -/
def Memory.wfFrom (lo : Nat) : Memory → Bool
  | [] => true
  | (a, b) :: rest => decide (lo ≤ a) && b != Config.unsuppliedByte && Memory.wfFrom (a + 1) rest

/-- The canonical form: offsets strictly rising, no entry equal to what an unlisted offset reads as. -/
def Memory.wf (m : Memory) : Bool := Memory.wfFrom 0 m

/-- The sum modulo 256 of `n` bytes from offset `a`. -/
def sumBytes (m : Memory) (a : Nat) : Nat → Byte
  | 0 => 0
  | n + 1 => add8 (sumBytes m a n) (m.read (a + n))

/-- `sum8(i, j)` (R11, R161): the sum modulo 256 of IN[i], …, IN[j-1]. -/
def sum8 (m : Memory) (i j : Nat) : Byte := sumBytes m i (j - i)

/-! ## Reading IN -/

/-- `MemRead(a, 1)` (R11, R50): IN exists for FD only while PHASE = Run, PRESENT = 1, and below LENGTH (log 15). -/
def State.memRead (s : State) (a : Nat) : Option Byte :=
  if s.phase = .run ∧ s.present = true ∧ a < s.length then some (s.input.read a) else none

/-- MemRead at each offset of a list, in its order. -/
def readAll (s : State) : List Nat → Option (List Byte)
  | [] => some []
  | a :: rest =>
    match s.memRead a with
    | none => none
    | some b =>
      match readAll s rest with
      | none => none
      | some bs => some (b :: bs)

/-- The scanning step of PSTATE is the one that runs (R113): the loop condition. -/
abbrev State.scanning (s : State) : Prop :=
  s.pstate ≠ .finished ∧ s.offset < s.length

/-- A scanning step of state `p` is enabled (R113). -/
abbrev State.scanEnabled (s : State) (p : PState) : Prop :=
  s.phase = .run ∧ s.pstate = p ∧ s.offset < s.length

/-- FINALISE is enabled (R170). -/
abbrev State.finaliseEnabled (s : State) : Prop :=
  s.phase = .run ∧ (s.pstate = .finished ∨ s.length ≤ s.offset)

/-- How many bytes the scanning step of a state consumes (R86). -/
def bytesConsumed (p : PState) (dataLength : Nibble) : Nat :=
  match p with
  | .seekPreambleHigh => 1
  | .seekPreambleLow => 1
  | .readHeader => 1
  | .readPayload => (clampLength dataLength).toNat
  | .readChecksum => 1
  | .finished => 0

/-- The offsets FD's next step reads, in order (R56, R60): none unless a scanning step runs. -/
def State.readOffsets (s : State) : List Nat :=
  if s.phase = .run ∧ s.scanning then List.range' s.offset (bytesConsumed s.pstate s.dataLength) else []

/-- What the classification of R86 reads of the state. -/
def State.scanContext (s : State) : ScanContext :=
  { pstate := s.pstate, length := s.length, offset := s.offset, dataLength := s.dataLength, sum := s.sum }

/-- Which row runs while PHASE = Run (R113). -/
def State.selector (s : State) : Selector :=
  if s.scanning then .scan s.scanContext else .finalise

/-- Read the bytes of FD's next step, each once (R60), and decode them (R86). -/
def fetch (s : State) : Host.Outcome Instr Fault Refusal :=
  match readAll s s.readOffsets with
  | none => .fault .readOutsideInput
  | some bytes =>
    match decode s.selector bytes with
    | none => .refused .undecodable
    | some (i, _) => .next i

/-! ## Writing FD's registers -/

/-- `MemWrite(k, 1, v)` for the bytes of a list from cell `k` on, in ascending order (R150, R152). -/
def storePayload (p : Vector Byte Config.capacity) (k : Nat) : List Byte → Vector Byte Config.capacity
  | [] => p
  | v :: rest => storePayload (p.setIfInBounds k v) (k + 1) rest

/-- The cursor passes `n` bytes (R26). -/
def State.advance (s : State) (n : Nat) : State := { s with offset := s.offset + n }

/-- PSTATE moves (R117). -/
def State.goto (s : State) (p : PState) : State := { s with pstate := p }

/-- SPH.MATCH's memory of the candidate frame: FSTART and the first byte in SUM (R130, R134). -/
def State.beginFrame (s : State) : State := { s with fstart := s.offset, sum := Config.preambleHi }

/-- SUM takes in the bytes of a list (R131, R140, R150). -/
def State.addToSum (s : State) (bytes : List Byte) : State := { s with sum := addBytes s.sum bytes }

/-- The header fields are written and the header byte is added to SUM (R140, R141). -/
def State.latchHeader (s : State) (len ident : Nibble) : State :=
  { s with identifier := ident, dataLength := len, sum := add8 s.sum (headerByte len ident) }

/-- The payload bytes are copied from cell 0 on, after the clamp of DATALENGTH (R150 to R152). -/
def State.copyPayload (s : State) (data : List Byte) : State :=
  { s with dataLength := clampLength s.dataLength, payload := storePayload s.payload 0 data }

/-- DECODE's operands are latched (R110). -/
def State.latchOperands (s : State) (present : Bool) (length : Nat) : State :=
  { s with present := present, length := length }

/-- The scan starts at the first state, at offset 0 (R112). -/
def State.startScan (s : State) : State :=
  { s with pstate := .seekPreambleHigh, offset := 0, phase := .run }

/-- `abort_scan` (R115): the cursor goes to the end of the buffer and PSTATE stays. -/
def State.abortScan (s : State) : State := { s with offset := s.length }

/-- `raise <Outcome>` (R11, R188): what FD has in place of taking an exception. OUTCOME is written and the operation
is over; nothing is saved and nothing is vectored to. The way on is the next DECODE (R189). -/
def State.raiseOutcome (s : State) (o : FrameOutcome) : State :=
  { s with outcome := o, phase := .done }

/-- Reset of a machine in any state (R210, R211): PHASE = Idle, PSTATE = SPH, and every other register a free value
(R38, log 3). IN and the host are not FD's and stay. -/
def State.applyReset (s : State) : State :=
  { s with
    phase := .idle
    pstate := .seekPreambleHigh
    present := Config.resetPresent s.resets
    length := Config.resetLength s.resets
    offset := Config.resetOffset s.resets
    fstart := Config.resetFstart s.resets
    sum := Config.resetSum s.resets
    outcome := Config.resetOutcome s.resets
    identifier := Config.resetIdentifier s.resets
    dataLength := Config.resetDataLength s.resets
    payload := Config.resetPayload s.resets
    resets := s.resets + 1 }

/-- The host stores a byte of IN (R50, R62). -/
def State.hostWrite (s : State) (a : Nat) (b : Byte) : State := { s with input := s.input.write a b }

/-- The rest of the host's actions, the oldest taken. -/
def State.withHost (s : State) (actions : List HostAction) : State := { s with host := actions }

/-- One meaning after another: the second runs in the state the first leaves. -/
def andThen (o : Host.Outcome State Fault Refusal) (f : State → Host.Outcome State Fault Refusal) :
    Host.Outcome State Fault Refusal :=
  match o with
  | .next s => f s
  | .fault r => .fault r
  | .refused r => .refused r

end Sys2Proof.Machine
end

