-- ==== Sys2Proof/Machine/Command.lean ====
section
/-! DEFINITION. The host command DECODE with its entry check (R110 to R112, R121). -/

namespace Sys2Proof.Machine

/-- DECODE (R110): ignored while an operation runs (R121, log 7); else the operands are latched, and the entry check
ends the operation with NotEnoughData (R111) or the scan starts (R112). -/
def execDecode (present : Bool) (length : Nat) (s : State) : Host.Outcome State Fault Refusal :=
  if s.phase = .run then .next s
  else if entryFails present length then .next ((s.latchOperands present length).raiseOutcome .notEnoughData)
  else .next (s.latchOperands present length).startScan

end Sys2Proof.Machine
end

