-- ==== Sys2Proof/Machine/Checksum.lean ====
section
/-! DEFINITION. The checksum validator and the terminal state: RC.MATCH, RC.MISMATCH, FIN (R160, R163). The checksum
byte is compared with the register SUM, which R162 says is the checksum (log 8). -/

namespace Sys2Proof.Machine

/-- RC.MATCH (R160): the checksum byte equals the sum. -/
def execRcMatch (c : Byte) (s : State) : Host.Outcome State Fault Refusal :=
  if s.scanEnabled .readChecksum ∧ c = s.sum then .next ((s.goto .finished).advance 1)
  else .refused .stepNotEnabled

/-- RC.MISMATCH (R160, R164): it does not, and the scan aborts. -/
def execRcMismatch (c : Byte) (s : State) : Host.Outcome State Fault Refusal :=
  if s.scanEnabled .readChecksum ∧ c ≠ s.sum then .next s.abortScan
  else .refused .stepNotEnabled

/-- FIN (R163, R86): the terminal scan state reads no byte, writes nothing and stays (log 12). -/
def execFin (s : State) : Host.Outcome State Fault Refusal :=
  if s.pstate = .finished then .next s else .refused .stepNotEnabled

end Sys2Proof.Machine
end

