-- ==== Sys2Proof/Machine/Header.lean ====
section
/-! DEFINITION. The header decoder: RH.ACCEPT and RH.UNDERFLOW (R140 to R143). -/

namespace Sys2Proof.Machine

/-- RH.ACCEPT (R140): the fields are latched and the rest of the frame fits. -/
def execRhAccept (len ident : Nibble) (s : State) : Host.Outcome State Fault Refusal :=
  if s.scanEnabled .readHeader ∧ headerFits s.length s.offset len then
    .next (((s.latchHeader len ident).goto .readPayload).advance 1)
  else .refused .stepNotEnabled

/-- RH.UNDERFLOW (R140, R143): the fields are latched, the rest of the frame does not fit, the scan aborts. -/
def execRhUnderflow (len ident : Nibble) (s : State) : Host.Outcome State Fault Refusal :=
  if s.scanEnabled .readHeader ∧ ¬ headerFits s.length s.offset len then
    .next (s.latchHeader len ident).abortScan
  else .refused .stepNotEnabled

end Sys2Proof.Machine
end

