-- ==== Sys2Proof/Machine/Payload.lean ====
section
/-! DEFINITION. The payload accumulator: RP.COPY (R150 to R154). -/

namespace Sys2Proof.Machine

/-- RP.COPY (R150): DATALENGTH bytes go to PAYLOAD from cell 0 on and into SUM, and the cursor passes them. -/
def execRpCopy (data : List Byte) (s : State) : Host.Outcome State Fault Refusal :=
  if s.scanEnabled .readPayload ∧ data.length = (clampLength s.dataLength).toNat then
    .next ((((s.copyPayload data).addToSum data).goto .readChecksum).advance data.length)
  else .refused .stepNotEnabled

end Sys2Proof.Machine
end

