-- ==== Sys2Proof/Machine/Preamble.lean ====
section
/-! DEFINITION. The preamble detector: SPH.MATCH, SPH.SKIP, SPL.MATCH, SPL.MISS (R130, R131). -/

namespace Sys2Proof.Machine

/-- SPH.MATCH (R130): the byte 0x44 in SPH opens a candidate frame. -/
def execSphMatch (s : State) : Host.Outcome State Fault Refusal :=
  if s.scanEnabled .seekPreambleHigh then .next ((s.beginFrame.goto .seekPreambleLow).advance 1)
  else .refused .stepNotEnabled

/-- SPH.SKIP (R130): any other byte is passed. -/
def execSphSkip (b : Byte) (s : State) : Host.Outcome State Fault Refusal :=
  if s.scanEnabled .seekPreambleHigh ∧ b ≠ Config.preambleHi then .next (s.advance 1)
  else .refused .stepNotEnabled

/-- SPL.MATCH (R131): the byte 0x43 completes the preamble. -/
def execSplMatch (s : State) : Host.Outcome State Fault Refusal :=
  if s.scanEnabled .seekPreambleLow then
    .next (((s.addToSum [Config.preambleLo]).goto .readHeader).advance 1)
  else .refused .stepNotEnabled

/-- SPL.MISS (R131, R132): any other byte is consumed and the search starts over at the next one. -/
def execSplMiss (b : Byte) (s : State) : Host.Outcome State Fault Refusal :=
  if s.scanEnabled .seekPreambleLow ∧ b ≠ Config.preambleLo then
    .next ((s.goto .seekPreambleHigh).advance 1)
  else .refused .stepNotEnabled

end Sys2Proof.Machine
end

