-- ==== Sys2Proof/Machine/Frame.lean ====
section
/-! DEFINITION. The whole-frame pattern FRAME (R81, R96): the five steps that consume its bytes, in order. -/

namespace Sys2Proof.Machine

/-- FRAME (R80, R81): SPH.MATCH, SPL.MATCH, RH.ACCEPT, RP.COPY and RC.MATCH on the bytes of FRAME(i; p) (log 11). -/
def execFrame (ident : Nibble) (payload : List Byte) (s : State) : Host.Outcome State Fault Refusal :=
  andThen (andThen (andThen (andThen (execSphMatch s) execSplMatch) (execRhAccept (payloadLength payload) ident))
    (execRpCopy payload)) (execRcMatch (frameChecksum ident payload))

end Sys2Proof.Machine
end

