-- ==== Sys2Proof/Machine/Outcome.lean ====
section
/-! DEFINITION. The outcome derivation: FINALISE (R170). -/

namespace Sys2Proof.Machine

/-- FINALISE (R170): the scan state reached becomes the outcome and the operation is done. -/
def execFinalise (s : State) : Host.Outcome State Fault Refusal :=
  if s.finaliseEnabled then .next (s.raiseOutcome (deriveOutcome s.pstate s.dataLength))
  else .refused .stepNotEnabled

end Sys2Proof.Machine
end

