-- ==== Sys2Proof/Machine/Dispatch.lean ====
section
/-! DEFINITION. One arm per instruction: exec hands each to its meaning. -/

namespace Sys2Proof.Machine

def exec (i : Instr) (s : State) : Host.Outcome State Fault Refusal :=
  match i with
  | .sphMatch => Sys2Proof.Machine.execSphMatch s
  | .sphSkip b => Sys2Proof.Machine.execSphSkip b s
  | .splMatch => Sys2Proof.Machine.execSplMatch s
  | .splMiss b => Sys2Proof.Machine.execSplMiss b s
  | .rhAccept len ident => Sys2Proof.Machine.execRhAccept len ident s
  | .rhUnderflow len ident => Sys2Proof.Machine.execRhUnderflow len ident s
  | .rpCopy data => Sys2Proof.Machine.execRpCopy data s
  | .rcMatch c => Sys2Proof.Machine.execRcMatch c s
  | .rcMismatch c => Sys2Proof.Machine.execRcMismatch c s
  | .fin => Sys2Proof.Machine.execFin s
  | .decode present length => Sys2Proof.Machine.execDecode present length s
  | .finalise => Sys2Proof.Machine.execFinalise s
  | .frame ident payload => Sys2Proof.Machine.execFrame ident payload s

end Sys2Proof.Machine
end

