-- ==== Sys2Proof/Machine/Agents.lean ====
section
/-! DEFINITION. The two agents: FD's own step (R113) and what each host action does (R64, R110, R210); and where a
word of the opcode table is put for FD to fetch it. -/

namespace Sys2Proof.Machine

/-- FD's own step (R113): fetch and run the enabled row while PHASE = Run; no step is enabled in Idle and Done, and FD
rests (R175, log 6). -/
def fdStep (s : State) : Host.Outcome State Fault Refusal :=
  match s.phase with
  | .run =>
    match fetch s with
    | .next i => exec i s
    | .fault r => .fault r
    | .refused r => .refused r
  | .idle => .next s
  | .done => .next s

/-- What a host action does (log 5): nothing, so that FD steps; reset (R210); the DECODE command (R110); one byte
stored into IN (R50, R62). -/
def hostAct (a : HostAction) (s : State) : Host.Outcome State Fault Refusal :=
  match a with
  | .pause => fdStep s
  | .reset => .next s.applyReset
  | .decode present length => exec (.decode present length) s
  | .writeInput offset b => .next (s.hostWrite offset b)

/-- The host presents DECODE with both operands 0: a table word with no bits (log 13). -/
def placeCommand (s : State) : State :=
  { s with phase := if s.phase = .run then .idle else s.phase, host := [.decode false 0] }

/-- The bytes of a table word are stored in IN at OFFSET, with PRESENT, LENGTH, PHASE and PSTATE such that FD's next
step reads them there, and no host action comes first (log 13, log 14). -/
def placeBytes (s : State) (bytes : List Byte) : State :=
  { s with
    present := true
    length := max s.length (s.offset + bytes.length)
    phase := .run
    pstate := tableState bytes
    input := s.input.writeBytes s.offset bytes
    host := [] }

end Sys2Proof.Machine
end

