-- ==== Sys2Proof/Machine/Step.lean ====
section
/-! DEFINITION. One step of FD and its host, and the placing of an opcode-table word. -/

namespace Sys2Proof.Machine

/-- One step: the host's oldest action if it has one, else FD's own step (R64, R113, log 5). -/
def step (s : State) : Host.Outcome State Fault Refusal :=
  match s.host with
  | [] => fdStep s
  | a :: rest => hostAct a (s.withHost rest)

/-- `s` with a word of the opcode table where `step` fetches its next instruction (log 13, log 14). -/
def State.withFetchWord (s : State) (nbits w : Nat) : State :=
  if nbits = 0 then placeCommand s else placeBytes s (tableBytes nbits w)

end Sys2Proof.Machine
end

