-- ==== Sys2Proof/Machine/Reference.lean ====
section
/-! DEFINITION. The reference function decode_ref of R122: one operation as a loop over IN, written from the rule and
apart from the step machine, which is to agree with it. `none` is the rule's "-": not written by this operation. -/

namespace Sys2Proof.Machine

/-- The variables of decode_ref (R122). -/
structure RefLoop where
  ps  : PState
  off : Nat
  fs  : Option Nat
  sum : Option Byte
  id  : Option Nibble
  dl  : Option Nibble
  pay : Vector (Option Byte) Config.capacity
  deriving DecidableEq, Repr

/-- What decode_ref returns (R122). -/
structure RefFrame where
  outcome    : FrameOutcome
  identifier : Option Nibble
  dataLength : Option Nibble
  payload    : Vector (Option Byte) Config.capacity
  deriving DecidableEq, Repr

/-- The variables before the loop (R122). -/
def refStart : RefLoop where
  ps := .seekPreambleHigh
  off := 0
  fs := none
  sum := none
  id := none
  dl := none
  pay := Vector.replicate Config.capacity none

/-- The copy loop of RP for k = `k`, …, `k + n - 1` (R122). -/
def refCopy (m : Memory) (off k : Nat) (n : Nat) (r : RefLoop) : RefLoop :=
  match n with
  | 0 => r
  | n + 1 =>
    refCopy m off (k + 1) n
      { r with
        pay := r.pay.setIfInBounds k (some (m.read (off + k)))
        sum := r.sum.map fun c => c + m.read (off + k) }

/-- One turn of the while loop (R122). -/
def refTurn (length : Nat) (m : Memory) (r : RefLoop) : RefLoop :=
  let b := m.read r.off
  match r.ps with
  | .seekPreambleHigh =>
    if b = 0x44 then { r with fs := some r.off, sum := some 0x44, ps := .seekPreambleLow, off := r.off + 1 }
    else { r with off := r.off + 1 }
  | .seekPreambleLow =>
    if b = 0x43 then { r with sum := r.sum.map (· + 0x43), ps := .readHeader, off := r.off + 1 }
    else { r with ps := .seekPreambleHigh, off := r.off + 1 }
  | .readHeader =>
    let r' := { r with
      id := some (BitVec.ofNat 4 (b.toNat % 16)), dl := some (BitVec.ofNat 4 (b.toNat / 16)), sum := r.sum.map (· + b) }
    if length - r.off - 1 ≥ b.toNat / 16 + 1 then { r' with ps := .readPayload, off := r.off + 1 }
    else { r' with off := length }
  | .readPayload =>
    let n := (r.dl.getD 0).toNat
    { refCopy m r.off 0 n r with off := r.off + n, ps := .readChecksum }
  | .readChecksum =>
    if r.sum = some b then { r with ps := .finished, off := r.off + 1 } else { r with off := length }
  | .finished => r

/-- The while loop of decode_ref, with a bound on its turns (R122). -/
def refLoop (length : Nat) (m : Memory) : Nat → RefLoop → RefLoop
  | 0, r => r
  | fuel + 1, r =>
    if r.ps ≠ .finished ∧ r.off < length then refLoop length m fuel (refTurn length m r) else r

/-- The outcome of the loop's final state (R122). -/
def refOutcome (r : RefLoop) : FrameOutcome :=
  match r.ps with
  | .seekPreambleHigh => .wrongHeader
  | .seekPreambleLow => .wrongHeader
  | .readHeader => .notEnoughData
  | .readPayload => .notEnoughData
  | .readChecksum => .wrongChecksum
  | .finished => if (r.dl.getD 0).toNat > 0 then .ok else .messageEmpty

/-- decode_ref (R122). The loop takes at most LENGTH + 1 turns (R118). -/
def decodeRef (present : Bool) (length : Nat) (m : Memory) : RefFrame :=
  if present = false ∨ length < 4 then
    { outcome := .notEnoughData, identifier := none, dataLength := none, payload := Vector.replicate Config.capacity none }
  else
    let r := refLoop length m (length + 1) refStart
    { outcome := refOutcome r, identifier := r.id, dataLength := r.dl, payload := r.pay }

end Sys2Proof.Machine
end

