-- ==== Sys2Proof/Safety.lean ====
section
/-! DEFINITION. What a safe run of FD is and the terms claims use: runs, the host's obligations (R215, R219), the range
invariants (R34), the checksum invariant (R162), the candidate frame (R133, R173), the transition graph of PSTATE
(R117), and when two machines look the same to their hosts (R37). -/

namespace Sys2Proof.Machine

/-! ## Runs -/

/-- `k` steps, stopping at the first fault or refusal. -/
def runSteps : Nat → State → Host.Outcome State Fault Refusal
  | 0, s => .next s
  | k + 1, s => andThen (step s) (runSteps k)

/-- The operation the host starts from `s` with DECODE(present, length), doing nothing after it, ends in `t`. An
operation runs from the DECODE, which is its first step, to PHASE = Done (R13): a machine that is Done before the
DECODE is taken has not ended it. -/
def operationEnds (s : State) (present : Bool) (length : Nat) (t : State) : Prop :=
  t.phase = .done ∧ ∃ k, 0 < k ∧ runSteps k (s.withHost [.decode present length]) = .next t

/-! ## The host -/

/-- The host's next action keeps its obligations: while BUSY it issues no DECODE (R219), and it does not change
IN[0..LENGTH) (R215): after a store every offset below LENGTH reads as before. -/
def hostObeys (s : State) : Prop :=
  match s.host with
  | [] => True
  | .pause :: _ => True
  | .reset :: _ => True
  | .decode _ _ :: _ => s.phase ≠ .run
  | .writeInput a b :: _ => s.phase = .run → ∀ x, x < s.length → (s.input.write a b).read x = s.input.read x

/-- FD itself steps next: the host has nothing to do, or pauses. -/
def hostQuiet (s : State) : Prop :=
  s.host = [] ∨ ∃ rest, s.host = .pause :: rest

/-- `s` with the host's pause taken, if one comes next: the state FD's own step starts from. -/
def State.afterPause (s : State) : State := s.withHost s.host.tail

/-! ## Invariants of an operation -/

/-- The range invariants of R34, with PRESENT = 1, which the entry check has established (R112). They speak of
PHASE = Run only. -/
def rangeInv (s : State) : Prop :=
  s.phase = .run →
    s.present = true ∧ Config.minFrame ≤ s.length ∧ s.offset ≤ s.length ∧
    (s.pstate ≠ .seekPreambleHigh → s.fstart < s.offset) ∧
    (s.pstate = .seekPreambleLow → s.offset = s.fstart + 1) ∧
    (s.pstate = .readHeader → s.offset < s.length → s.offset = s.fstart + 2) ∧
    (s.pstate = .readPayload → s.offset = s.fstart + 3 ∧ s.offset + s.dataLength.toNat + 1 ≤ s.length) ∧
    (s.pstate = .readChecksum → s.offset < s.length → s.offset = s.fstart + 3 + s.dataLength.toNat) ∧
    (s.pstate = .finished → s.offset = s.fstart + 4 + s.dataLength.toNat)

/-- The scan has not aborted (R115): an abort leaves the cursor past where RH and RC stand (R34). -/
def scanLive (s : State) : Prop :=
  (s.pstate = .readHeader → s.offset = s.fstart + 2) ∧
    (s.pstate = .readChecksum → s.offset = s.fstart + 3 + s.dataLength.toNat)

/-- SUM is the checksum so far (R162). -/
def sumInv (s : State) : Prop :=
  s.phase = .run → s.pstate ≠ .seekPreambleHigh → s.pstate ≠ .finished → scanLive s →
    s.sum = sum8 s.input s.fstart s.offset

/-- The bytes of IN from FSTART on are what the scan state says they are, and the Frame registers hold them
(R133, R173). -/
def candidateInv (s : State) : Prop :=
  s.phase = .run →
    (s.pstate ≠ .seekPreambleHigh → s.input.read s.fstart = Config.preambleHi) ∧
    (s.pstate = .readHeader ∨ s.pstate = .readPayload ∨ s.pstate = .readChecksum ∨ s.pstate = .finished →
      s.input.read (s.fstart + 1) = Config.preambleLo) ∧
    (s.pstate = .readPayload ∨ s.pstate = .readChecksum ∨ s.pstate = .finished →
      s.identifier = lo4 (s.input.read (s.fstart + 2)) ∧ s.dataLength = hi4 (s.input.read (s.fstart + 2))) ∧
    (s.pstate = .readChecksum ∨ s.pstate = .finished →
      ∀ k : Fin Config.capacity, k.val < s.dataLength.toNat →
        s.payload[k] = s.input.read (s.fstart + 3 + k.val)) ∧
    (s.pstate = .finished →
      s.input.read (s.fstart + 3 + s.dataLength.toNat)
        = sum8 s.input s.fstart (s.fstart + 3 + s.dataLength.toNat))

/-- What candidateInv says of IN lies below LENGTH, also after an abort, of which the range invariants of R34 say no
more than FSTART < OFFSET: the preamble found in RH (R131), the whole frame accepted from RP on (R142). -/
def candidateInBuffer (s : State) : Prop :=
  s.phase = .run →
    (s.pstate = .readHeader → s.fstart + 2 ≤ s.length) ∧
    (s.pstate = .readPayload ∨ s.pstate = .readChecksum ∨ s.pstate = .finished →
      s.fstart + 4 + s.dataLength.toNat ≤ s.length)

/-- All that holds of an operation at every step, and the canonical form of IN. -/
def operationInv (s : State) : Prop :=
  s.input.wf = true ∧ rangeInv s ∧ sumInv s ∧ candidateInv s ∧ candidateInBuffer s

/-! ## The scan as a whole -/

/-- The transition graph of PSTATE (R117): the edge a scanning step takes on the byte at the cursor. There are no
others. -/
def scanGraph (s : State) : PState :=
  let b := s.input.read s.offset
  match s.pstate with
  | .seekPreambleHigh => if b = 0x44 then .seekPreambleLow else .seekPreambleHigh
  | .seekPreambleLow => if b = 0x43 then .readHeader else .seekPreambleHigh
  | .readHeader => if s.offset + b.toNat / 16 + 2 ≤ s.length then .readPayload else .readHeader
  | .readPayload => .readChecksum
  | .readChecksum => if b = s.sum then .finished else .readChecksum
  | .finished => .finished

/-- The offsets of IN one step reads: those of FD's own step, none for a host action (R56, R60). -/
def stepReads (s : State) : List Nat :=
  match s.host with
  | [] => s.readOffsets
  | .pause :: _ => s.readOffsets
  | .reset :: _ => []
  | .decode _ _ :: _ => []
  | .writeInput _ _ :: _ => []

/-- The offsets of IN that `k` steps read, in the order they are read. -/
def readTrace : Nat → State → List Nat
  | 0, _ => []
  | k + 1, s =>
    stepReads s ++
      match step s with
      | .next t => readTrace k t
      | .fault _ => []
      | .refused _ => []

/-! ## What an instruction may write -/

/-- The registers of R40's columns. -/
inductive Register where
  | present | length | phase | pstate | offset | fstart | sum | outcome | identifier | dataLength | payload
  deriving DecidableEq, Repr

/-- A register holds the same in two states. -/
def sameRegister (r : Register) (s t : State) : Prop :=
  match r with
  | .present => s.present = t.present
  | .length => s.length = t.length
  | .phase => s.phase = t.phase
  | .pstate => s.pstate = t.pstate
  | .offset => s.offset = t.offset
  | .fstart => s.fstart = t.fstart
  | .sum => s.sum = t.sum
  | .outcome => s.outcome = t.outcome
  | .identifier => s.identifier = t.identifier
  | .dataLength => s.dataLength = t.dataLength
  | .payload => s.payload = t.payload

/-- The rows of R40: the registers an instruction writes. DECODE's two rows are told apart by the entry check; FRAME
writes what its five steps write. -/
def writtenBy : Instr → List Register
  | .sphMatch => [.pstate, .offset, .fstart, .sum]
  | .sphSkip _ => [.offset]
  | .splMatch => [.pstate, .offset, .sum]
  | .splMiss _ => [.pstate, .offset]
  | .rhAccept _ _ => [.pstate, .offset, .sum, .identifier, .dataLength]
  | .rhUnderflow _ _ => [.offset, .sum, .identifier, .dataLength]
  | .rpCopy _ => [.pstate, .offset, .sum, .payload]
  | .rcMatch _ => [.pstate, .offset]
  | .rcMismatch _ => [.offset]
  | .fin => []
  | .decode present length =>
    if entryFails present length then [.present, .length, .phase, .outcome]
    else [.present, .length, .phase, .pstate, .offset]
  | .finalise => [.phase, .outcome]
  | .frame _ _ => [.pstate, .offset, .fstart, .sum, .identifier, .dataLength, .payload]

/-- How many payload cells an instruction stores to, from cell 0 on (R35, R152). -/
def cellsStored : Instr → Nat
  | .sphMatch => 0
  | .sphSkip _ => 0
  | .splMatch => 0
  | .splMiss _ => 0
  | .rhAccept _ _ => 0
  | .rhUnderflow _ _ => 0
  | .rpCopy data => data.length
  | .rcMatch _ => 0
  | .rcMismatch _ => 0
  | .fin => 0
  | .decode _ _ => 0
  | .finalise => 0
  | .frame _ payload => payload.length

/-- The instructions that are single steps FD itself takes: all rows but the command DECODE, the terminal row FIN,
which enables no step (R163), and the pattern FRAME, which is five steps (R81). -/
def ownStep : Instr → Bool
  | .sphMatch => true
  | .sphSkip _ => true
  | .splMatch => true
  | .splMiss _ => true
  | .rhAccept _ _ => true
  | .rhUnderflow _ _ => true
  | .rpCopy _ => true
  | .rcMatch _ => true
  | .rcMismatch _ => true
  | .fin => false
  | .decode _ _ => false
  | .finalise => true
  | .frame _ _ => false

/-! ## Buffers and hosts -/

/-- IN holds the bytes of a list from offset `a` on. -/
def Memory.holds (m : Memory) (a : Nat) : List Byte → Bool
  | [] => true
  | b :: rest => m.read a == b && Memory.holds m (a + 1) rest

/-- No preamble pair 0x44, 0x43 in IN[0..length) (R135). -/
def noPreamblePair (m : Memory) (length : Nat) : Prop :=
  ∀ j, j + 1 < length → ¬ (m.read j = Config.preambleHi ∧ m.read (j + 1) = Config.preambleLo)

/-- The two register files agree on the first `n` payload cells. -/
def samePayload (n : Nat) (s t : State) : Prop :=
  ∀ k : Fin Config.capacity, k.val < n → s.payload[k] = t.payload[k]

/-- Two machines that look the same to their hosts now and in all that follows (R37): they agree on PHASE, IN and the
host's actions; while an operation runs, on every register a later step of it reads or has written as part of the
result; when it is done, on OUTCOME and the valid fields (R173). Stale registers may differ. -/
def sameForHost (s t : State) : Prop :=
  s.phase = t.phase ∧ s.input = t.input ∧ s.host = t.host ∧
    (s.phase = .run →
      s.present = t.present ∧ s.length = t.length ∧ s.pstate = t.pstate ∧ s.offset = t.offset ∧
      (s.pstate ≠ .seekPreambleHigh → s.sum = t.sum) ∧
      (s.pstate = .readPayload ∨ s.pstate = .readChecksum ∨ s.pstate = .finished →
        s.identifier = t.identifier ∧ s.dataLength = t.dataLength) ∧
      (s.pstate = .readChecksum ∨ s.pstate = .finished → samePayload s.dataLength.toNat s t)) ∧
    (s.phase = .done →
      s.outcome = t.outcome ∧
      (framedOutcome s.outcome = true →
        s.identifier = t.identifier ∧ s.dataLength = t.dataLength ∧ samePayload s.dataLength.toNat s t))

/-- decode_ref's result (R122) is what the operation that led from `before` to `after` left: a field it gives as "-"
keeps its value. -/
def refAgrees (r : RefFrame) (before after : State) : Prop :=
  after.outcome = r.outcome ∧ after.identifier = r.identifier.getD before.identifier ∧
    after.dataLength = r.dataLength.getD before.dataLength ∧
    ∀ k : Fin Config.capacity, after.payload[k] = (r.payload[k]).getD before.payload[k]

end Sys2Proof.Machine
end

