-- ==== Sys2Proof/Certificates/Slice0/Obligations.lean ====
section
/-! DEFINITION. The statements about FD, from the numbered rules of spec/. What a reset leaves in the registers R38
calls unspecified is a free value: no statement rests on it. -/

open Sys2Proof Sys2Proof.Machine

/-! ## Reset, codes and status levels -/

/-- R210, R211: the reset input, whatever FD was doing, gives PHASE = Idle and PSTATE = SPH; BUSY = 0 and DONE = 0; an
operation it meets has no outcome; after it no step of FD is enabled and nothing is read. The spec's own choices D15,
D16; that FD rests where no step is enabled is the model's (log 6), as are the refusal of a disabled row (log 10) and
the host's view (log 18). -/
def Obligations.ResetGivesIdleMachine : Prop :=
  ∀ (s : State) (rest : List HostAction), s.host = .reset :: rest →
    ∃ t, step s = .next t ∧ t.phase = .idle ∧ t.pstate = .seekPreambleHigh ∧ t.busy = false ∧ t.done = false ∧
      t.hostView.outcome = none ∧ t.host = rest ∧ t.input = s.input ∧ t.readOffsets = [] ∧ fdStep t = .next t ∧
      ∀ i, ownStep i = true → exec i t = .refused .stepNotEnabled

/-- R38, R34: the state after reset is Idle in SPH and meets every invariant below. The spec's own choice D15. -/
def Obligations.ResetStateMeetsInvariants : Prop :=
  State.reset.phase = .idle ∧ State.reset.pstate = .seekPreambleHigh ∧ operationInv State.reset

/-- R91, R92, R89: the numeric codes of OUTCOME, PSTATE and PHASE, and that no reserved code is produced. The spec's
own choices D8, D9. -/
def Obligations.NumericCodesAsListed : Prop :=
  (FrameOutcome.ok.code = 0 ∧ FrameOutcome.notEnoughData.code = 1 ∧ FrameOutcome.messageEmpty.code = 2 ∧
    FrameOutcome.wrongHeader.code = 3 ∧ FrameOutcome.wrongChecksum.code = 4) ∧
  (PState.seekPreambleHigh.code = 0 ∧ PState.seekPreambleLow.code = 1 ∧ PState.readHeader.code = 2 ∧
    PState.readPayload.code = 3 ∧ PState.readChecksum.code = 4 ∧ PState.finished.code = 5) ∧
  (Phase.idle.code = 0 ∧ Phase.run.code = 1 ∧ Phase.done.code = 2) ∧
  (∀ o : FrameOutcome, o.code < 5) ∧ (∀ p : PState, p.code < 6) ∧ (∀ p : Phase, p.code < 3)

/-- R32: BUSY = 1 exactly when PHASE = Run, DONE = 1 exactly when PHASE = Done. The spec's own choice D6; the host's
view is the model's (log 18). -/
def Obligations.BusyAndDoneFollowPhase : Prop :=
  ∀ s : State, (s.busy = true ↔ s.phase = .run) ∧ (s.done = true ↔ s.phase = .done) ∧
    s.hostView.busy = s.busy ∧ s.hostView.done = s.done

/-! ## The host command -/

/-- R111: a failing entry check writes PRESENT, LENGTH, OUTCOME = NotEnoughData and PHASE = Done, and nothing else.
That nothing else is written is the spec's own choice D23. -/
def Obligations.DecodeEntryCheckFails : Prop :=
  ∀ (s : State) (present : Bool) (length : Nat), s.phase ≠ .run → (present = false ∨ length < 4) →
    exec (.decode present length) s =
      .next { s with present := present, length := length, outcome := .notEnoughData, phase := .done }

/-- R112 with R110: a passing entry check latches the operands and starts the scan at SPH, offset 0, writing nothing
else. -/
def Obligations.DecodeStartsScan : Prop :=
  ∀ (s : State) (length : Nat), s.phase ≠ .run → 4 ≤ length →
    exec (.decode true length) s =
      .next { s with present := true, length := length, pstate := .seekPreambleHigh, offset := 0, phase := .run }

/-- R121: a DECODE presented while PHASE = Run changes no register, and the running operation continues: the next step
is the one it would have been. The spec's own choice D7 (log 7). -/
def Obligations.DecodeIgnoredWhileRunning : Prop :=
  ∀ (s : State) (present : Bool) (length : Nat), s.phase = .run →
    exec (.decode present length) s = .next s ∧
    ∀ rest, s.host = .decode present length :: rest → step s = .next (s.withHost rest)

/-! ## The scanning steps and FINALISE -/

/-- R130: SPH.MATCH and SPH.SKIP, and that FD reads the byte at OFFSET to choose between them. SUM is the spec's own
choice D12. -/
def Obligations.SeekPreambleHighStep : Prop :=
  ∀ s : State, s.scanEnabled .seekPreambleHigh →
    exec .sphMatch s =
      .next { s with fstart := s.offset, sum := 0x44, pstate := .seekPreambleLow, offset := s.offset + 1 } ∧
    (∀ b, b ≠ 0x44 → exec (.sphSkip b) s = .next { s with offset := s.offset + 1 }) ∧
    (s.present = true →
      fdStep s = if s.input.read s.offset = 0x44 then exec .sphMatch s
        else exec (.sphSkip (s.input.read s.offset)) s)

/-- R131: SPL.MATCH and SPL.MISS, and that FD reads the byte at OFFSET to choose between them. SUM is the spec's own
choice D12. -/
def Obligations.SeekPreambleLowStep : Prop :=
  ∀ s : State, s.scanEnabled .seekPreambleLow →
    exec .splMatch s =
      .next { s with sum := s.sum + 0x43, pstate := .readHeader, offset := s.offset + 1 } ∧
    (∀ b, b ≠ 0x43 →
      exec (.splMiss b) s = .next { s with pstate := .seekPreambleHigh, offset := s.offset + 1 }) ∧
    (s.present = true →
      fdStep s = if s.input.read s.offset = 0x43 then exec .splMatch s
        else exec (.splMiss (s.input.read s.offset)) s)

/-- R140: RH.ACCEPT and RH.UNDERFLOW write the two fields of the header byte and add it to SUM (the spec's choice D12);
the first passes the byte, the second aborts by moving OFFSET to LENGTH (the spec's choice D10). -/
def Obligations.ReadHeaderStep : Prop :=
  ∀ (s : State) (len ident : Nibble), s.scanEnabled .readHeader →
    (s.offset + len.toNat + 2 ≤ s.length →
      exec (.rhAccept len ident) s =
        .next { s with
          identifier := ident, dataLength := len, sum := s.sum + headerByte len ident,
          pstate := .readPayload, offset := s.offset + 1 }) ∧
    (s.length < s.offset + len.toNat + 2 →
      exec (.rhUnderflow len ident) s =
        .next { s with
          identifier := ident, dataLength := len, sum := s.sum + headerByte len ident, offset := s.length })

/-- R142: with h = OFFSET and N the high nibble of the byte there, RH.ACCEPT is taken if and only if
LENGTH - h - 1 >= N + 1, equivalently h + N + 2 <= LENGTH, that is, the checksum byte's offset exists; no byte after the
header is read for it. -/
def Obligations.SufficiencyTestSelectsTheRow : Prop :=
  ∀ s : State, s.scanEnabled .readHeader → s.present = true →
    ∃ len ident : Nibble,
      len.toNat = (s.input.read s.offset).toNat / 16 ∧ ident.toNat = (s.input.read s.offset).toNat % 16 ∧
      headerByte len ident = s.input.read s.offset ∧ s.readOffsets = [s.offset] ∧
      (len.toNat + 1 ≤ s.length - s.offset - 1 ↔ s.offset + len.toNat + 2 ≤ s.length) ∧
      (s.offset + len.toNat + 2 ≤ s.length ↔ s.offset + 1 + len.toNat < s.length) ∧
      fdStep s = if s.offset + len.toNat + 2 ≤ s.length then exec (.rhAccept len ident) s
        else exec (.rhUnderflow len ident) s

/-- R150, R152, R153: RP.COPY puts the DATALENGTH bytes into cells 0 to DATALENGTH - 1 in order and into SUM, passes
them, and goes to RC; the other cells and registers stay; and FD reads the bytes from OFFSET on. SUM and the order are
the spec's own choices D12, D25. -/
def Obligations.ReadPayloadStep : Prop :=
  ∀ s : State, s.scanEnabled .readPayload →
    (∀ data : List Byte, data.length = s.dataLength.toNat →
      ∃ cells : Vector Byte 15,
        (∀ k : Fin 15, cells[k] = (data[k.val]?).getD s.payload[k]) ∧
        exec (.rpCopy data) s =
          .next { s with
            payload := cells, sum := data.foldl (· + ·) s.sum, offset := s.offset + s.dataLength.toNat,
            pstate := .readChecksum }) ∧
    (s.present = true → s.offset + s.dataLength.toNat ≤ s.length →
      fdStep s = exec (.rpCopy ((List.range' s.offset s.dataLength.toNat).map s.input.read)) s)

/-- R160: RC.MATCH and RC.MISMATCH; with the invariants of R34 and R162, FD compares the byte at OFFSET with
sum8(FSTART, OFFSET). The spec's own choices D10, D11, and its inference R162 (log 8). -/
def Obligations.ReadChecksumStep : Prop :=
  ∀ s : State, s.scanEnabled .readChecksum →
    exec (.rcMatch s.sum) s = .next { s with pstate := .finished, offset := s.offset + 1 } ∧
    (∀ c, c ≠ s.sum → exec (.rcMismatch c) s = .next { s with offset := s.length }) ∧
    (rangeInv s → sumInv s →
      fdStep s = if s.input.read s.offset = sum8 s.input s.fstart s.offset
        then .next { s with pstate := .finished, offset := s.offset + 1 }
        else .next { s with offset := s.length })

/-- R163: PSTATE = FIN enables no scanning step, whatever OFFSET is; the next step is FINALISE; no byte is read; and
no instruction but DECODE moves PSTATE from FIN. That a row that is not enabled is refused is the model's (log 10). -/
def Obligations.FinishedIsTerminal : Prop :=
  ∀ s : State, s.pstate = .finished →
    s.readOffsets = [] ∧ (s.phase = .run → fdStep s = exec .finalise s) ∧
    (∀ i, ownStep i = true → i ≠ .finalise → exec i s = .refused .stepNotEnabled) ∧
    (∀ i t, exec i s = .next t → (∀ present length, i ≠ .decode present length) → t.pstate = .finished)

/-- The table's row FIN writes nothing wherever PSTATE = FIN, and has no effect elsewhere. The model's reading of R86
and R163 (log 12). -/
def Obligations.FinRowWritesNothing : Prop :=
  ∀ s : State, (s.pstate = .finished → exec .fin s = .next s) ∧
    (s.pstate ≠ .finished → exec .fin s = .refused .stepNotEnabled)

/-- R170: FINALISE turns the scan state reached into OUTCOME and sets PHASE = Done, and writes nothing else. That it
is a step of its own is the spec's own choice D24. -/
def Obligations.FinaliseDerivesOutcome : Prop :=
  ∀ s : State, s.phase = .run → (s.pstate = .finished ∨ s.length ≤ s.offset) →
    fdStep s = exec .finalise s ∧
    (s.pstate = .seekPreambleHigh ∨ s.pstate = .seekPreambleLow →
      exec .finalise s = .next { s with outcome := .wrongHeader, phase := .done }) ∧
    (s.pstate = .readHeader ∨ s.pstate = .readPayload →
      exec .finalise s = .next { s with outcome := .notEnoughData, phase := .done }) ∧
    (s.pstate = .readChecksum →
      exec .finalise s = .next { s with outcome := .wrongChecksum, phase := .done }) ∧
    (s.pstate = .finished → 0 < s.dataLength.toNat →
      exec .finalise s = .next { s with outcome := .ok, phase := .done }) ∧
    (s.pstate = .finished → s.dataLength.toNat = 0 →
      exec .finalise s = .next { s with outcome := .messageEmpty, phase := .done })

/-- R81, R96: FRAME(i; p) taken as one instruction in SPH consumes the 4 + n bytes of a frame and leaves what its
header, payload and checksum say. FRAME as one instruction is the model's (log 11). -/
def Obligations.FrameDecodesItself : Prop :=
  ∀ (s : State) (ident : Nibble) (payload : List Byte),
    s.phase = .run → s.pstate = .seekPreambleHigh → payload.length ≤ 15 → s.offset + 4 + payload.length ≤ s.length →
    ∃ cells : Vector Byte 15,
      (∀ k : Fin 15, cells[k] = (payload[k.val]?).getD s.payload[k]) ∧
      exec (.frame ident payload) s =
        .next { s with
          pstate := .finished, offset := s.offset + 4 + payload.length, fstart := s.offset,
          sum := frameChecksum ident payload, identifier := ident, dataLength := BitVec.ofNat 4 payload.length,
          payload := cells }

/-- R81, R86: where IN holds the bytes of FRAME(i; p) at the cursor, five steps of FD do what FRAME does as one
instruction. FRAME as one instruction is the model's (log 11). -/
def Obligations.FiveStepsAreOneFrame : Prop :=
  ∀ (s : State) (ident : Nibble) (payload : List Byte),
    s.phase = .run → s.pstate = .seekPreambleHigh → s.present = true → s.host = [] → payload.length ≤ 15 →
    s.offset + 4 + payload.length ≤ s.length → s.input.holds s.offset (frameBytes ident payload) = true →
    runSteps 5 s = exec (.frame ident payload) s

/-! ## The step and the decoder -/

/-- R113, R86, R64: while PHASE = Run and the host lets FD step, the step is exec of the row decoded from the bytes at
the cursor; FD rests in Idle and Done; a DECODE of the host is exec of DECODE. The host's actions and the rest are the
model's (logs 5, 6, 15). -/
def Obligations.StepRunsDecodedInstruction : Prop :=
  (∀ (s : State) (i : Instr) (rest : List Byte), hostQuiet s → s.phase = .run →
    (∀ a ∈ s.readOffsets, s.present = true ∧ a < s.length) →
    decode s.selector (s.readOffsets.map s.input.read) = some (i, rest) → step s = exec i s.afterPause) ∧
  (∀ s : State, hostQuiet s → s.phase ≠ .run → step s = .next s.afterPause) ∧
  (∀ (s : State) (present : Bool) (length : Nat) (rest : List HostAction),
    s.host = .decode present length :: rest → step s = exec (.decode present length) (s.withHost rest))

/-- R82, R84, R80: words written out from the spec's encodings decode to the rows they stand for. The context of a
table word is the model's (log 13). -/
def Obligations.WrittenWordsDecode : Prop :=
  decodeTableWord 8 0b01000100 = some .sphMatch ∧ decodeTableWord 8 0b01000011 = some .splMatch ∧
  decode (.scan ⟨.seekPreambleHigh, 7, 0, 0, 0⟩) [0x43] = some (.sphSkip 0x43, []) ∧
  decode (.scan ⟨.seekPreambleLow, 7, 1, 0, 0x44⟩) [0x44] = some (.splMiss 0x44, []) ∧
  decode (.scan ⟨.readHeader, 7, 2, 0, 0x87⟩) [0b00111010] = some (.rhAccept 3 10, []) ∧
  decode (.scan ⟨.readHeader, 6, 2, 0, 0x87⟩) [0b00111010] = some (.rhUnderflow 3 10, []) ∧
  decode (.scan ⟨.readPayload, 7, 3, 3, 0xC1⟩) [0x11, 0x22, 0x33, 0x27] = some (.rpCopy [0x11, 0x22, 0x33], [0x27]) ∧
  decode (.scan ⟨.readChecksum, 7, 6, 3, 0x27⟩) [0x27] = some (.rcMatch 0x27, []) ∧
  decode (.scan ⟨.readChecksum, 7, 6, 3, 0x27⟩) [0x28] = some (.rcMismatch 0x28, []) ∧
  decode .frame [0x44, 0x43, 0x3A, 0x11, 0x22, 0x33, 0x27] = some (.frame 10 [0x11, 0x22, 0x33], [])

/-- R113, R86, R114: an own step of FD has its effect exactly where R113 selects its row for it, and is refused
everywhere else. That a disabled row is refused is the model's (log 10), and so is that RC's rows are selected by SUM
(log 8). -/
def Obligations.ExactlySelectedRowsRun : Prop :=
  ∀ (s : State) (i : Instr), ownStep i = true →
    ((s.phase = .run ∧ rowApplies s.selector i = true → ∃ t, exec i s = .next t) ∧
      (¬ (s.phase = .run ∧ rowApplies s.selector i = true) → exec i s = .refused .stepNotEnabled))

/-- R80, R84, R86, R96: no bit of an encoding is dropped. Every instruction, with whatever follows its bytes, decodes
from its own encoding under every selector of its row; and every well-formed instruction has one. RC's rows compare
with SUM (log 8). -/
def Obligations.DecodeOfEncodeIsIdentity : Prop :=
  (∀ (sel : Selector) (i : Instr) (rest : List Byte), rowApplies sel i = true →
    decode sel (encode i ++ rest) = some (i, rest)) ∧
  (∀ i : Instr, i.wellFormed = true → ∃ sel, rowApplies sel i = true)

/-- R80, R84, R86, R96: the decoder invents nothing. What it reads is well-formed, is of the row selected, and its
encoding followed by what is left over is the bytes given. RC's rows compare with SUM (log 8). -/
def Obligations.EncodeOfDecodeIsIdentity : Prop :=
  ∀ (sel : Selector) (bytes : List Byte) (i : Instr) (rest : List Byte), decode sel bytes = some (i, rest) →
    bytes = encode i ++ rest ∧ rowApplies sel i = true ∧ i.wellFormed = true

/-- R86, R87: in every scan state, whatever the bytes, exactly one row applies to them; there is no illegal byte. RC's
rows compare with SUM (log 8). -/
def Obligations.ExactlyOneRowApplies : Prop :=
  ∀ (c : ScanContext) (bytes : List Byte), bytesConsumed c.pstate c.dataLength ≤ bytes.length →
    ∃ i, (rowApplies (.scan c) i = true ∧ ∃ rest, bytes = encode i ++ rest) ∧
      ∀ j, (rowApplies (.scan c) j = true ∧ ∃ rest, bytes = encode j ++ rest) → j = i

/-! ## Frames -/

/-- R40, R35, R50: an instruction leaves every register outside its row of the writer table, every payload cell it
does not store to, every byte of IN and the host as they were. FRAME's row is the model's (log 11). -/
def Obligations.WriterTableHolds : Prop :=
  ∀ (i : Instr) (s t : State), exec i s = .next t →
    (∀ r : Register, r ∉ writtenBy i → sameRegister r s t) ∧
    (∀ k : Fin 15, cellsStored i ≤ k.val → t.payload[k] = s.payload[k]) ∧
    (∀ a, t.input.read a = s.input.read a) ∧ t.host = s.host

/-! ## Invariants -/

/-- R34: the range invariants are kept by every step, whatever the host does. The spec's inference of R34, with
PRESENT = 1 added. -/
def Obligations.RangeInvariantKept : Prop :=
  ∀ s t : State, rangeInv s → step s = .next t → rangeInv t

/-- R180, R87, R53: from a state that meets the range invariants no step stops, whatever IN holds and whatever the
host does. The host's actions (log 5), the rest in Idle and Done (log 6) and that a DECODE in Run is ignored, where
R121 allows a refusal (D7, log 7), are the model's. -/
def Obligations.NoStepStops : Prop :=
  ∀ s : State, rangeInv s → ∃ t, step s = .next t

/-- R162: while the scan has not aborted, SUM = sum8(FSTART, OFFSET); every step keeps that, for a host that does not
change IN[0..LENGTH) while BUSY. The spec's own inference. -/
def Obligations.SumIsTheChecksum : Prop :=
  ∀ s t : State, rangeInv s → sumInv s → hostObeys s → step s = .next t → sumInv t

/-- R133, R173, R162: the candidate frame in IN and the Frame registers agree with the scan state; every step keeps
that with the other invariants, for a host that does not change IN[0..LENGTH) and issues no DECODE while BUSY.
Inferred from the rules named. -/
def Obligations.OperationInvariantKept : Prop :=
  ∀ s t : State, operationInv s → hostObeys s → step s = .next t → operationInv t

/-- R50, R62: IN keeps its canonical form under every step; a byte the host stores, whatever FD is doing, is read back
while every other offset reads as before and every register of FD is as it was; and no other step changes a byte of
IN. The byte space and the host's actions are the model's (logs 4, 5). -/
def Obligations.InputKeepsCanonicalForm : Prop :=
  ∀ s t : State, s.input.wf = true → step s = .next t →
    t.input.wf = true ∧
    (∀ a b rest, s.host = .writeInput a b :: rest →
      t.input.read a = b ∧ (∀ x, x ≠ a → t.input.read x = s.input.read x) ∧
        t = { s with input := t.input, host := rest }) ∧
    ((∀ a b rest, s.host ≠ .writeInput a b :: rest) → ∀ x, t.input.read x = s.input.read x)

/-- R173: when an operation ends, what the host may read: under Ok and MessageEmpty the fields of the frame the
scanner locked onto, DATALENGTH being 1 to 15 under Ok and 0 under MessageEmpty; under the other outcomes no field.
The host's view is the model's (log 18). -/
def Obligations.ValidFieldsDescribeTheFrame : Prop :=
  ∀ s t : State, rangeInv s → candidateInv s → s.phase = .run → hostQuiet s → step s = .next t → t.phase = .done →
    t.hostView.outcome = some t.outcome ∧
    (t.outcome = .ok ∨ t.outcome = .messageEmpty →
      t.hostView.identifier = some (lo4 (t.input.read (t.fstart + 2))) ∧
      t.hostView.dataLength = some (hi4 (t.input.read (t.fstart + 2))) ∧
      t.hostView.payload = (List.range' (t.fstart + 3) (hi4 (t.input.read (t.fstart + 2))).toNat).map t.input.read) ∧
    (t.outcome = .ok → 1 ≤ t.dataLength.toNat ∧ t.dataLength.toNat ≤ 15) ∧
    (t.outcome = .messageEmpty → t.dataLength.toNat = 0) ∧
    (t.outcome ≠ .ok → t.outcome ≠ .messageEmpty →
      t.hostView.identifier = none ∧ t.hostView.dataLength = none ∧ t.hostView.payload = [])

/-! ## The scan as a whole -/

/-- R117: a step of the scan moves PSTATE along the edge of the transition graph that the byte at the cursor selects,
and OFFSET never decreases and stays within LENGTH; the step after the scan moves neither. The match of RC's edge is
with SUM, by the spec's inference R162 (log 8). -/
def Obligations.OnlyGraphEdgesAreTaken : Prop :=
  ∀ s t : State, rangeInv s → hostQuiet s → s.phase = .run → step s = .next t →
    (s.scanning → t.pstate = scanGraph s ∧ s.offset ≤ t.offset ∧ t.offset ≤ s.length) ∧
    (¬ s.scanning → t.pstate = s.pstate ∧ t.offset = s.offset ∧ t.phase = .done)

/-- R53, R54: every read of a step is below LENGTH, and every payload write is to a cell 0 to 14. The spec's own
inferences. -/
def Obligations.AccessesStayInBounds : Prop :=
  (∀ s : State, rangeInv s → ∀ a ∈ stepReads s, a < s.length) ∧
  (∀ (i : Instr) (s t : State), exec i s = .next t → ∀ k, k < cellsStored i → k ≤ 14)

/-- R60: one operation reads offsets 0, 1, 2, … in ascending order without gaps, each once, and stays below LENGTH.
The spec's own choice D13. -/
def Obligations.EachOffsetReadOnceInOrder : Prop :=
  ∀ (s : State) (present : Bool) (length k : Nat), s.phase ≠ .run →
    ∃ e, e ≤ length ∧ readTrace k (s.withHost [.decode present length]) = List.range e

/-- R55: when the entry check fails, the operation ends at once with NotEnoughData and no byte of IN is read, then or
later. That the Done machine rests is the model's (log 6). -/
def Obligations.FailedEntryCheckReadsNothing : Prop :=
  ∀ (s : State) (present : Bool) (length k : Nat), s.phase ≠ .run → (present = false ∨ length < 4) →
    readTrace k (s.withHost [.decode present length]) = [] ∧
    ∃ t, runSteps (k + 1) (s.withHost [.decode present length]) = .next t ∧ t.phase = .done ∧
      t.outcome = .notEnoughData

/-- R56, R123: a step depends on IN only through the bytes it reads: with any other contents elsewhere it does the
same. Inferred from the rules named; RC reads the checksum byte alone because it compares with SUM (log 8). -/
def Obligations.StepSeesOnlyBytesItReads : Prop :=
  ∀ (s t : State) (m : Memory), hostQuiet s → (∀ a ∈ stepReads s, m.read a = s.input.read a) → step s = .next t →
    step { s with input := m } = .next { t with input := m }

/-- R62, R215: a byte the host stores while PHASE = Run that changes no offset from OFFSET up to LENGTH (it is stored
where FD has read already, or at or above LENGTH, or was there already) changes nothing but IN, then or in any number
of steps. The host's actions are the model's (logs 5, 19), and that FD does not read an offset again is the spec's own
choice D13 (log 8). -/
def Obligations.StoresOffTheScanAreInvisible : Prop :=
  ∀ (s t : State) (a : Nat) (b : Byte) (k : Nat), rangeInv s → s.phase = .run →
    (∀ x, s.offset ≤ x → x < s.length → (s.input.write a b).read x = s.input.read x) → runSteps k (s.withHost []) = .next t →
    runSteps (k + 1) (s.withHost [.writeInput a b]) = .next { t with input := s.input.write a b }

/-- R118: from any point of an operation at most LENGTH - OFFSET + 1 scanning steps and one FINALISE follow, hence at
most LENGTH + 2 steps after the DECODE. The spec's own inference; each step of a run is taken (D26, log 17). -/
def Obligations.EveryOperationEnds : Prop :=
  ∀ s : State, rangeInv s → s.phase = .run → s.host = [] →
    ∃ k t, k ≤ s.length - s.offset + 1 ∧ runSteps k s = .next t ∧ t.phase = .run ∧ ¬ t.scanning ∧
      ∃ u, step t = .next u ∧ u.phase = .done

/-- R120: OUTCOME is written exactly in the step that ends an operation: a step that changes it leaves PHASE = Done; a
step from Run to Done has written the outcome R170 gives; a step from Idle to Done, and a DECODE whose entry check
fails, the outcome R111 gives; and no other step changes it. A reset apart. -/
def Obligations.OneOutcomePerOperation : Prop :=
  ∀ s t : State, step s = .next t → (∀ rest, s.host ≠ .reset :: rest) →
    (t.outcome ≠ s.outcome → t.phase = .done) ∧
    (s.phase = .run → t.phase = .done → t.outcome = deriveOutcome s.pstate s.dataLength) ∧
    (s.phase = .idle → t.phase = .done → t.outcome = .notEnoughData) ∧
    (∀ present length rest, s.phase ≠ .run → s.host = .decode present length :: rest →
      (present = false ∨ length < 4) → t.phase = .done ∧ t.outcome = .notEnoughData) ∧
    (s.phase = .run → t.phase = .run → t.outcome = s.outcome) ∧
    (s.phase = .done → (∀ present length rest, s.host ≠ .decode present length :: rest) → t.outcome = s.outcome)

/-- R122: whatever the machine held before, an operation ends, and leaves in OUTCOME, IDENTIFIER, DATALENGTH and
PAYLOAD what the reference function gives, a field given as "-" unchanged. The spec derives the function from its
rules. -/
def Obligations.OperationMatchesReference : Prop :=
  ∀ (s : State) (present : Bool) (length : Nat), s.phase ≠ .run →
    ∃ t, operationEnds s present length t ∧ refAgrees (decodeRef present length s.input) s t

/-- R37: the outcome of an operation and all the host may read after it depend only on PRESENT, LENGTH and IN, not on
what any register held before. The spec's own inference and choice D14; the host's view is the model's (log 18). -/
def Obligations.NothingCarriesOver : Prop :=
  ∀ (s s' : State) (present : Bool) (length : Nat), s.phase ≠ .run → s'.phase ≠ .run →
    (∀ a, a < length → s.input.read a = s'.input.read a) →
    ∃ t t', operationEnds s present length t ∧ operationEnds s' present length t' ∧ t.outcome = t'.outcome ∧
      t.hostView = t'.hostView

/-- R37, R36, R39: two machines that differ only in registers the operation does not read again stay so at every step,
under every host, and show their hosts the same. The spec's own inference; FSTART is stale from SPL on because RC
compares with SUM (R162, D12, log 8), where R20, R37 and R160 name FSTART as read; the host's view is the model's (log
18). -/
def Obligations.StaleRegistersStayHidden : Prop :=
  (∀ s s' : State, sameForHost s s' → s.hostView = s'.hostView) ∧
  (∀ s s' t : State, sameForHost s s' → step s = .next t → ∃ t', step s' = .next t' ∧ sameForHost t t')

/-- R123, R96, R173: a frame after leading bytes with no 0x44, whatever follows it, is decoded: Ok or, when empty,
MessageEmpty, with its identifier, length and payload. The round trip P3 of spec/95. -/
def Obligations.FrameIsDecodedWholly : Prop :=
  ∀ (s : State) (lead payload : List Byte) (ident : Nibble) (length : Nat),
    s.phase ≠ .run → (∀ b ∈ lead, b ≠ 0x44) → payload.length ≤ 15 →
    s.input.holds 0 (lead ++ frameBytes ident payload) = true →
    (lead ++ frameBytes ident payload).length ≤ length →
    ∃ t, operationEnds s true length t ∧ t.outcome = (if payload = [] then .messageEmpty else .ok) ∧
      t.hostView.identifier = some ident ∧ t.hostView.dataLength = some (BitVec.ofNat 4 payload.length) ∧
      t.hostView.payload = payload

/-- R160, R164, R165: a frame whose checksum byte is any other value gives WrongChecksum; so does a frame with one
payload byte changed and the checksum byte of the unchanged one. The property P4 of spec/95. -/
def Obligations.CorruptionGivesWrongChecksum : Prop :=
  ∀ (s : State) (lead payload : List Byte) (ident : Nibble) (length : Nat),
    s.phase ≠ .run → (∀ b ∈ lead, b ≠ 0x44) → payload.length ≤ 15 →
    lead.length + 4 + payload.length ≤ length →
    (∀ c, c ≠ frameChecksum ident payload →
      s.input.holds 0 (lead ++ [0x44, 0x43, headerByte (payloadLength payload) ident] ++ payload ++ [c]) = true →
      ∃ t, operationEnds s true length t ∧ t.outcome = .wrongChecksum) ∧
    (∀ (k : Nat) (hk : k < payload.length) (v : Byte), v ≠ payload[k] →
      s.input.holds 0 (lead ++ [0x44, 0x43, headerByte (payloadLength payload) ident] ++ payload.set k v
        ++ [frameChecksum ident payload]) = true →
      ∃ t, operationEnds s true length t ∧ t.outcome = .wrongChecksum)

/-- R142, R181, R145: a frame cut short gives NotEnoughData: at any cut when it starts the buffer, and after leading
bytes with no 0x44 at any cut that leaves its two preamble bytes. The property P5 of spec/95. -/
def Obligations.TruncationGivesNotEnoughData : Prop :=
  ∀ (s : State) (lead payload : List Byte) (ident : Nibble) (cut : Nat),
    s.phase ≠ .run → (∀ b ∈ lead, b ≠ 0x44) → payload.length ≤ 15 → cut ≤ 3 + payload.length →
    (lead = [] ∨ 2 ≤ cut) → s.input.holds 0 (lead ++ (frameBytes ident payload).take cut) = true →
    ∃ t, operationEnds s true (lead.length + cut) t ∧ t.outcome = .notEnoughData

/-- R135: a buffer of LENGTH 4 or more with no pair 0x44, 0x43 in it is scanned to its end and gives WrongHeader. The
property P2 of spec/95. -/
def Obligations.NoPreambleGivesWrongHeader : Prop :=
  ∀ (s : State) (length : Nat), s.phase ≠ .run → 4 ≤ length → noPreamblePair s.input length →
    ∃ t, operationEnds s true length t ∧ t.outcome = .wrongHeader ∧ t.offset = length

/-- R132: on SPL.MISS the byte is consumed even when it is 0x44, and the next byte is tested in SPH; and a run of k bytes
0x44 followed by 0x43, entered in SPH at its first byte, is recognised as a preamble if and only if k is odd. -/
def Obligations.OddRunsOfPreambleByteLock : Prop :=
  (∀ s : State, s.scanEnabled .seekPreambleLow → s.present = true → s.host = [] → s.input.read s.offset = 0x44 →
    step s = .next { s with pstate := .seekPreambleHigh, offset := s.offset + 1 }) ∧
  (∀ (s : State) (k : Nat), s.phase = .run → s.pstate = .seekPreambleHigh → s.present = true → s.host = [] →
    s.offset + k + 1 ≤ s.length → s.input.holds s.offset (List.replicate k 0x44 ++ [0x43]) = true →
    ∃ t, runSteps (k + 1) s = .next t ∧ t.phase = .run ∧ t.offset = s.offset + k + 1 ∧
      (k % 2 = 1 → t.pstate = .readHeader ∧ t.fstart + 1 = s.offset + k) ∧
      (k % 2 = 0 → t.pstate = .seekPreambleHigh))

/-- R115, R116: after RH.UNDERFLOW and RC.MISMATCH nothing more is read: the next step is FINALISE, with NotEnoughData
and WrongChecksum, though a good frame may follow. The spec's own choice D10. -/
def Obligations.AbortEndsTheOperation : Prop :=
  ∀ (s t : State), s.host = [] →
    (∀ len ident, exec (.rhUnderflow len ident) s = .next t →
      t.offset = t.length ∧ t.pstate = .readHeader ∧ t.readOffsets = [] ∧
      step t = .next { t with outcome := .notEnoughData, phase := .done }) ∧
    (∀ c, exec (.rcMismatch c) s = .next t →
      t.offset = t.length ∧ t.pstate = .readChecksum ∧ t.readOffsets = [] ∧
      step t = .next { t with outcome := .wrongChecksum, phase := .done })

/-- R175: when PHASE = Done FD has no enabled step and reads nothing, and the Frame registers hold until the next
DECODE or reset. That a row that is not enabled is refused (log 10) and that a machine with no enabled step rests (log
6) are the model's. -/
def Obligations.DoneMachineHoldsItsFrame : Prop :=
  ∀ s : State, s.phase = .done →
    (∀ i, ownStep i = true → exec i s = .refused .stepNotEnabled) ∧ stepReads s = [] ∧
    ((∀ rest, s.host ≠ .reset :: rest) → (∀ present length rest, s.host ≠ .decode present length :: rest) →
      ∃ t, step s = .next t ∧ t.phase = .done ∧ t.outcome = s.outcome ∧ t.identifier = s.identifier ∧
        t.dataLength = s.dataLength ∧ t.payload = s.payload)

/-- R155: after RH.ACCEPT the payload step is enabled and its reads are below LENGTH - 1, and after it the checksum
step is enabled. Inferred from the rules named. -/
def Obligations.AcceptedFrameReachesChecksum : Prop :=
  ∀ s t : State, rangeInv s → s.host = [] → s.phase = .run → s.pstate = .readPayload → step s = .next t →
    s.scanEnabled .readPayload ∧ (∀ a ∈ stepReads s, a + 1 < s.length) ∧ t.scanEnabled .readChecksum ∧
      t.offset = s.fstart + 3 + s.dataLength.toNat

/-- R8, R34: no width is needed beyond LENGTH's own: if LENGTH fits LENGTH_BITS bits, so do OFFSET and FSTART after
every step of FD, and LENGTH does not change. The spec's own choice D4 (log 1). -/
def Obligations.CursorFitsWidthOfLength : Prop :=
  ∀ (bits : Nat) (s t : State), 3 ≤ bits → rangeInv s → hostQuiet s → s.phase = .run → s.length < 2 ^ bits →
    step s = .next t →
    t.length = s.length ∧ t.offset < 2 ^ bits ∧ (t.pstate ≠ .seekPreambleHigh → t.fstart < 2 ^ bits)
end

