-- ==== Sys2Proof/Laws/Memory.lean ====
section
/-! SUPPORT. The laws of the byte space: a read after a write, and that every operation keeps the canonical form. -/

namespace Sys2Proof.Machine

open Memory

theorem Memory.wfFrom_mono {lo lo' : Nat} {m : Memory} (hle : lo' ≤ lo) (h : wfFrom lo m = true) :
    wfFrom lo' m = true := by
  cases m with
  | nil => rfl
  | cons c rest =>
    simp only [wfFrom, Bool.and_eq_true, decide_eq_true_eq] at h ⊢
    exact ⟨⟨hle.trans h.1.1, h.1.2⟩, h.2⟩

/-- Below its first possible offset a canonical memory lists nothing. -/
theorem Memory.read_below {lo a : Nat} {m : Memory} (h : wfFrom lo m = true) (ha : a < lo) :
    m.read a = Config.unsuppliedByte := by
  induction m generalizing lo with
  | nil => rfl
  | cons c rest ih =>
    simp only [wfFrom, Bool.and_eq_true, decide_eq_true_eq] at h
    have hne : a ≠ c.1 := by omega
    simp only [read, hne, if_false]
    exact ih h.2 (by omega)

theorem Memory.put_wf {lo a : Nat} {v : Byte} {rest : Memory} (hlo : lo ≤ a) (h : wfFrom (a + 1) rest = true) :
    wfFrom lo (put a v rest) = true := by
  by_cases hv : v = Config.unsuppliedByte
  · simpa [put, hv] using wfFrom_mono (by omega) h
  · simp [put, hv, wfFrom, h, hlo]

theorem Memory.write_wfFrom {lo a : Nat} {m : Memory} (v : Byte) (hlo : lo ≤ a) (h : wfFrom lo m = true) :
    wfFrom lo (m.write a v) = true := by
  induction m generalizing lo with
  | nil => exact put_wf hlo rfl
  | cons c rest ih =>
    obtain ⟨a', b⟩ := c
    have hc := h
    simp only [wfFrom, Bool.and_eq_true, decide_eq_true_eq] at hc
    simp only [write]
    split
    · refine put_wf hlo ?_
      simp only [wfFrom, Bool.and_eq_true, decide_eq_true_eq]
      exact ⟨⟨by omega, hc.1.2⟩, hc.2⟩
    · split
      · subst a'
        exact put_wf hlo hc.2
      · simp only [wfFrom, Bool.and_eq_true, decide_eq_true_eq]
        exact ⟨hc.1, ih (by omega) hc.2⟩

/-- A store keeps the canonical form. -/
theorem Memory.write_wf {m : Memory} (a : Nat) (v : Byte) (h : m.wf = true) : (m.write a v).wf = true :=
  write_wfFrom v (Nat.zero_le a) h

/-- A store of several bytes keeps the canonical form. -/
theorem Memory.writeBytes_wf {m : Memory} (a : Nat) (bytes : List Byte) (h : m.wf = true) :
    (m.writeBytes a bytes).wf = true := by
  induction bytes generalizing m a with
  | nil => exact h
  | cons b rest ih => exact ih (a + 1) (write_wf a b h)

theorem Memory.read_put_same {lo a : Nat} {v : Byte} {rest : Memory} (ha : a < lo) (h : wfFrom lo rest = true) :
    (put a v rest).read a = v := by
  by_cases hv : v = Config.unsuppliedByte
  · simp [put, hv, read_below h ha]
  · simp [put, hv, read]

theorem Memory.read_put_other {a x : Nat} {v : Byte} {rest : Memory} (hx : x ≠ a) :
    (put a v rest).read x = rest.read x := by
  by_cases hv : v = Config.unsuppliedByte <;> simp [put, hv, read, hx]

theorem Memory.read_write_other {a x : Nat} {v : Byte} {m : Memory} (hx : x ≠ a) :
    (m.write a v).read x = m.read x := by
  induction m with
  | nil => exact read_put_other hx
  | cons c rest ih =>
    obtain ⟨a', b⟩ := c
    simp only [write]
    split
    · exact read_put_other hx
    · split
      · subst a'
        rw [read_put_other hx]
        simp [read, hx]
      · simp only [read, ih]

theorem Memory.read_write_same_from {lo a : Nat} {v : Byte} {m : Memory} (h : wfFrom lo m = true) :
    (m.write a v).read a = v := by
  induction m generalizing lo with
  | nil => exact read_put_same (lo := a + 1) (Nat.lt_succ_self a) rfl
  | cons c rest ih =>
    obtain ⟨a', b⟩ := c
    have hc := h
    simp only [wfFrom, Bool.and_eq_true, decide_eq_true_eq] at hc
    simp only [write]
    split
    · rename_i hlt
      refine read_put_same (lo := a') hlt ?_
      simp only [wfFrom, Bool.and_eq_true, decide_eq_true_eq]
      exact ⟨⟨le_refl _, hc.1.2⟩, hc.2⟩
    · split
      · subst a'
        exact read_put_same (Nat.lt_succ_self a) hc.2
      · rename_i hne
        simp only [read, hne, if_false]
        exact ih hc.2

/-- A read after a store to the same offset gives the byte stored. -/
theorem Memory.read_write_same {m : Memory} (a : Nat) (v : Byte) (h : m.wf = true) : (m.write a v).read a = v :=
  read_write_same_from h

/-- Canonical memories that read alike from `lo` on are the same data. -/
theorem Memory.ext_read {lo : Nat} {m m' : Memory} (h : wfFrom lo m = true) (h' : wfFrom lo m' = true)
    (hr : ∀ a, m.read a = m'.read a) : m = m' := by
  induction m generalizing m' lo with
  | nil =>
    cases m' with
    | nil => rfl
    | cons c rest =>
      simp only [wfFrom, Bool.and_eq_true, bne_iff_ne, ne_eq] at h'
      have := hr c.1
      simp [read] at this
      exact absurd this.symm h'.1.2
  | cons c rest ih =>
    obtain ⟨a, b⟩ := c
    have hc := h
    simp only [wfFrom, Bool.and_eq_true, bne_iff_ne, ne_eq, decide_eq_true_eq] at hc
    cases m' with
    | nil =>
      have := hr a
      simp [read] at this
      exact absurd this hc.1.2
    | cons c' rest' =>
      obtain ⟨a', b'⟩ := c'
      have hc' := h'
      simp only [wfFrom, Bool.and_eq_true, bne_iff_ne, ne_eq, decide_eq_true_eq] at hc'
      have heq : a = a' := by
        rcases Nat.lt_trichotomy a a' with hlt | heq | hlt
        · have := hr a
          have hne : a ≠ a' := by omega
          simp only [read, if_true, hne, if_false] at this
          exact absurd (this.trans (read_below hc'.2 (by omega))) hc.1.2
        · exact heq
        · have := hr a'
          have hne : a' ≠ a := by omega
          simp only [read, if_true, hne, if_false] at this
          exact absurd (this.symm.trans (read_below hc.2 (by omega))) hc'.1.2
      subst heq
      have hb : b = b' := by have := hr a; simpa [read] using this
      subst hb
      congr 1
      refine ih hc.2 hc'.2 fun x => ?_
      by_cases hx : x = a
      · subst hx
        rw [read_below hc.2 (by omega), read_below hc'.2 (by omega)]
      · have := hr x
        simpa [read, hx] using this

end Sys2Proof.Machine
end

