-- ==== Sys2Proof/Laws/Operands.lean ====
section
/-! SUPPORT. The laws of the operand forms and of the sums (R84, R151, R161). -/

namespace Sys2Proof.Machine

@[simp] theorem hi4_headerByte (len ident : Nibble) : hi4 (headerByte len ident) = len := by
  revert len ident; decide

@[simp] theorem lo4_headerByte (len ident : Nibble) : lo4 (headerByte len ident) = ident := by
  revert len ident; decide

@[simp] theorem headerByte_hi4_lo4 (b : Byte) : headerByte (hi4 b) (lo4 b) = b := by
  revert b; decide

/-- `hi4(b)` is floor(b / 16) and `lo4(b)` is b mod 16 (R84). -/
theorem hi4_toNat (b : Byte) : (hi4 b).toNat = b.toNat / 16 := by revert b; decide

theorem lo4_toNat (b : Byte) : (lo4 b).toNat = b.toNat % 16 := by revert b; decide

/-- The clamp is never taken (R9, R151). -/
@[simp] theorem clampLength_eq (len : Nibble) : clampLength len = len := by
  revert len; decide

theorem nibble_le (len : Nibble) : len.toNat ≤ Config.capacity := by
  have := len.isLt
  simp only [Config.capacity]
  omega

theorem payloadLength_toNat {payload : List Byte} (h : payload.length ≤ Config.capacity) :
    (payloadLength payload).toNat = payload.length := by
  simp only [payloadLength, BitVec.toNat_ofNat]
  exact Nat.mod_eq_of_lt (by simp only [Config.capacity] at h; omega)

@[simp] theorem addBytes_nil (c : Byte) : addBytes c [] = c := rfl

@[simp] theorem addBytes_cons (c b : Byte) (rest : List Byte) :
    addBytes c (b :: rest) = addBytes (add8 c b) rest := rfl

theorem addBytes_append (c : Byte) (xs ys : List Byte) : addBytes c (xs ++ ys) = addBytes (addBytes c xs) ys := by
  induction xs generalizing c with
  | nil => rfl
  | cons x xs ih => exact ih (add8 c x)

/-- The running sum is the start value plus the sum from 0. -/
theorem addBytes_eq_add (c : Byte) (xs : List Byte) : addBytes c xs = c + addBytes 0 xs := by
  induction xs generalizing c with
  | nil => simp
  | cons x xs ih =>
    rw [addBytes_cons, addBytes_cons, ih (add8 c x), ih (add8 0 x)]
    simp [add8, BitVec.add_assoc]

@[simp] theorem sumBytes_zero (m : Memory) (a : Nat) : sumBytes m a 0 = 0 := rfl

theorem sumBytes_succ (m : Memory) (a n : Nat) : sumBytes m a (n + 1) = add8 (sumBytes m a n) (m.read (a + n)) := rfl

@[simp] theorem sum8_self (m : Memory) (i : Nat) : sum8 m i i = 0 := by simp [sum8]

/-- One more byte joins the sum (R11, R161). -/
theorem sum8_succ {i j : Nat} (m : Memory) (h : i ≤ j) : sum8 m i (j + 1) = add8 (sum8 m i j) (m.read j) := by
  have h1 : j + 1 - i = (j - i) + 1 := by omega
  have h2 : i + (j - i) = j := by omega
  simp only [sum8, h1, sumBytes_succ, h2]

end Sys2Proof.Machine
end

