-- ==== Sys2Proof/Laws/State.lean ====
section
/-! SUPPORT. One lemma per field of State per named update: what the update writes, and that it leaves the rest (R40). -/

namespace Sys2Proof.Machine

variable (s : State)

/-! `State.advance` -/
@[simp] theorem State.advance_present (n : Nat) : (s.advance n).present = s.present := rfl
@[simp] theorem State.advance_length (n : Nat) : (s.advance n).length = s.length := rfl
@[simp] theorem State.advance_phase (n : Nat) : (s.advance n).phase = s.phase := rfl
@[simp] theorem State.advance_pstate (n : Nat) : (s.advance n).pstate = s.pstate := rfl
@[simp] theorem State.advance_offset (n : Nat) : (s.advance n).offset = s.offset + n := rfl
@[simp] theorem State.advance_fstart (n : Nat) : (s.advance n).fstart = s.fstart := rfl
@[simp] theorem State.advance_sum (n : Nat) : (s.advance n).sum = s.sum := rfl
@[simp] theorem State.advance_outcome (n : Nat) : (s.advance n).outcome = s.outcome := rfl
@[simp] theorem State.advance_identifier (n : Nat) : (s.advance n).identifier = s.identifier := rfl
@[simp] theorem State.advance_dataLength (n : Nat) : (s.advance n).dataLength = s.dataLength := rfl
@[simp] theorem State.advance_payload (n : Nat) : (s.advance n).payload = s.payload := rfl
@[simp] theorem State.advance_input (n : Nat) : (s.advance n).input = s.input := rfl
@[simp] theorem State.advance_host (n : Nat) : (s.advance n).host = s.host := rfl
@[simp] theorem State.advance_resets (n : Nat) : (s.advance n).resets = s.resets := rfl

/-! `State.goto` -/
@[simp] theorem State.goto_present (p : PState) : (s.goto p).present = s.present := rfl
@[simp] theorem State.goto_length (p : PState) : (s.goto p).length = s.length := rfl
@[simp] theorem State.goto_phase (p : PState) : (s.goto p).phase = s.phase := rfl
@[simp] theorem State.goto_pstate (p : PState) : (s.goto p).pstate = p := rfl
@[simp] theorem State.goto_offset (p : PState) : (s.goto p).offset = s.offset := rfl
@[simp] theorem State.goto_fstart (p : PState) : (s.goto p).fstart = s.fstart := rfl
@[simp] theorem State.goto_sum (p : PState) : (s.goto p).sum = s.sum := rfl
@[simp] theorem State.goto_outcome (p : PState) : (s.goto p).outcome = s.outcome := rfl
@[simp] theorem State.goto_identifier (p : PState) : (s.goto p).identifier = s.identifier := rfl
@[simp] theorem State.goto_dataLength (p : PState) : (s.goto p).dataLength = s.dataLength := rfl
@[simp] theorem State.goto_payload (p : PState) : (s.goto p).payload = s.payload := rfl
@[simp] theorem State.goto_input (p : PState) : (s.goto p).input = s.input := rfl
@[simp] theorem State.goto_host (p : PState) : (s.goto p).host = s.host := rfl
@[simp] theorem State.goto_resets (p : PState) : (s.goto p).resets = s.resets := rfl

/-! `State.beginFrame` -/
@[simp] theorem State.beginFrame_present : (s.beginFrame).present = s.present := rfl
@[simp] theorem State.beginFrame_length : (s.beginFrame).length = s.length := rfl
@[simp] theorem State.beginFrame_phase : (s.beginFrame).phase = s.phase := rfl
@[simp] theorem State.beginFrame_pstate : (s.beginFrame).pstate = s.pstate := rfl
@[simp] theorem State.beginFrame_offset : (s.beginFrame).offset = s.offset := rfl
@[simp] theorem State.beginFrame_fstart : (s.beginFrame).fstart = s.offset := rfl
@[simp] theorem State.beginFrame_sum : (s.beginFrame).sum = Config.preambleHi := rfl
@[simp] theorem State.beginFrame_outcome : (s.beginFrame).outcome = s.outcome := rfl
@[simp] theorem State.beginFrame_identifier : (s.beginFrame).identifier = s.identifier := rfl
@[simp] theorem State.beginFrame_dataLength : (s.beginFrame).dataLength = s.dataLength := rfl
@[simp] theorem State.beginFrame_payload : (s.beginFrame).payload = s.payload := rfl
@[simp] theorem State.beginFrame_input : (s.beginFrame).input = s.input := rfl
@[simp] theorem State.beginFrame_host : (s.beginFrame).host = s.host := rfl
@[simp] theorem State.beginFrame_resets : (s.beginFrame).resets = s.resets := rfl

/-! `State.addToSum` -/
@[simp] theorem State.addToSum_present (bytes : List Byte) : (s.addToSum bytes).present = s.present := rfl
@[simp] theorem State.addToSum_length (bytes : List Byte) : (s.addToSum bytes).length = s.length := rfl
@[simp] theorem State.addToSum_phase (bytes : List Byte) : (s.addToSum bytes).phase = s.phase := rfl
@[simp] theorem State.addToSum_pstate (bytes : List Byte) : (s.addToSum bytes).pstate = s.pstate := rfl
@[simp] theorem State.addToSum_offset (bytes : List Byte) : (s.addToSum bytes).offset = s.offset := rfl
@[simp] theorem State.addToSum_fstart (bytes : List Byte) : (s.addToSum bytes).fstart = s.fstart := rfl
@[simp] theorem State.addToSum_sum (bytes : List Byte) : (s.addToSum bytes).sum = addBytes s.sum bytes := rfl
@[simp] theorem State.addToSum_outcome (bytes : List Byte) : (s.addToSum bytes).outcome = s.outcome := rfl
@[simp] theorem State.addToSum_identifier (bytes : List Byte) : (s.addToSum bytes).identifier = s.identifier := rfl
@[simp] theorem State.addToSum_dataLength (bytes : List Byte) : (s.addToSum bytes).dataLength = s.dataLength := rfl
@[simp] theorem State.addToSum_payload (bytes : List Byte) : (s.addToSum bytes).payload = s.payload := rfl
@[simp] theorem State.addToSum_input (bytes : List Byte) : (s.addToSum bytes).input = s.input := rfl
@[simp] theorem State.addToSum_host (bytes : List Byte) : (s.addToSum bytes).host = s.host := rfl
@[simp] theorem State.addToSum_resets (bytes : List Byte) : (s.addToSum bytes).resets = s.resets := rfl

/-! `State.latchHeader` -/
@[simp] theorem State.latchHeader_present (len ident : Nibble) : (s.latchHeader len ident).present = s.present := rfl
@[simp] theorem State.latchHeader_length (len ident : Nibble) : (s.latchHeader len ident).length = s.length := rfl
@[simp] theorem State.latchHeader_phase (len ident : Nibble) : (s.latchHeader len ident).phase = s.phase := rfl
@[simp] theorem State.latchHeader_pstate (len ident : Nibble) : (s.latchHeader len ident).pstate = s.pstate := rfl
@[simp] theorem State.latchHeader_offset (len ident : Nibble) : (s.latchHeader len ident).offset = s.offset := rfl
@[simp] theorem State.latchHeader_fstart (len ident : Nibble) : (s.latchHeader len ident).fstart = s.fstart := rfl
@[simp] theorem State.latchHeader_sum (len ident : Nibble) : (s.latchHeader len ident).sum = add8 s.sum (headerByte len ident) := rfl
@[simp] theorem State.latchHeader_outcome (len ident : Nibble) : (s.latchHeader len ident).outcome = s.outcome := rfl
@[simp] theorem State.latchHeader_identifier (len ident : Nibble) : (s.latchHeader len ident).identifier = ident := rfl
@[simp] theorem State.latchHeader_dataLength (len ident : Nibble) : (s.latchHeader len ident).dataLength = len := rfl
@[simp] theorem State.latchHeader_payload (len ident : Nibble) : (s.latchHeader len ident).payload = s.payload := rfl
@[simp] theorem State.latchHeader_input (len ident : Nibble) : (s.latchHeader len ident).input = s.input := rfl
@[simp] theorem State.latchHeader_host (len ident : Nibble) : (s.latchHeader len ident).host = s.host := rfl
@[simp] theorem State.latchHeader_resets (len ident : Nibble) : (s.latchHeader len ident).resets = s.resets := rfl

/-! `State.copyPayload` -/
@[simp] theorem State.copyPayload_present (data : List Byte) : (s.copyPayload data).present = s.present := rfl
@[simp] theorem State.copyPayload_length (data : List Byte) : (s.copyPayload data).length = s.length := rfl
@[simp] theorem State.copyPayload_phase (data : List Byte) : (s.copyPayload data).phase = s.phase := rfl
@[simp] theorem State.copyPayload_pstate (data : List Byte) : (s.copyPayload data).pstate = s.pstate := rfl
@[simp] theorem State.copyPayload_offset (data : List Byte) : (s.copyPayload data).offset = s.offset := rfl
@[simp] theorem State.copyPayload_fstart (data : List Byte) : (s.copyPayload data).fstart = s.fstart := rfl
@[simp] theorem State.copyPayload_sum (data : List Byte) : (s.copyPayload data).sum = s.sum := rfl
@[simp] theorem State.copyPayload_outcome (data : List Byte) : (s.copyPayload data).outcome = s.outcome := rfl
@[simp] theorem State.copyPayload_identifier (data : List Byte) : (s.copyPayload data).identifier = s.identifier := rfl
@[simp] theorem State.copyPayload_dataLength (data : List Byte) : (s.copyPayload data).dataLength = clampLength s.dataLength := rfl
@[simp] theorem State.copyPayload_payload (data : List Byte) : (s.copyPayload data).payload = storePayload s.payload 0 data := rfl
@[simp] theorem State.copyPayload_input (data : List Byte) : (s.copyPayload data).input = s.input := rfl
@[simp] theorem State.copyPayload_host (data : List Byte) : (s.copyPayload data).host = s.host := rfl
@[simp] theorem State.copyPayload_resets (data : List Byte) : (s.copyPayload data).resets = s.resets := rfl

/-! `State.latchOperands` -/
@[simp] theorem State.latchOperands_present (present : Bool) (length : Nat) : (s.latchOperands present length).present = present := rfl
@[simp] theorem State.latchOperands_length (present : Bool) (length : Nat) : (s.latchOperands present length).length = length := rfl
@[simp] theorem State.latchOperands_phase (present : Bool) (length : Nat) : (s.latchOperands present length).phase = s.phase := rfl
@[simp] theorem State.latchOperands_pstate (present : Bool) (length : Nat) : (s.latchOperands present length).pstate = s.pstate := rfl
@[simp] theorem State.latchOperands_offset (present : Bool) (length : Nat) : (s.latchOperands present length).offset = s.offset := rfl
@[simp] theorem State.latchOperands_fstart (present : Bool) (length : Nat) : (s.latchOperands present length).fstart = s.fstart := rfl
@[simp] theorem State.latchOperands_sum (present : Bool) (length : Nat) : (s.latchOperands present length).sum = s.sum := rfl
@[simp] theorem State.latchOperands_outcome (present : Bool) (length : Nat) : (s.latchOperands present length).outcome = s.outcome := rfl
@[simp] theorem State.latchOperands_identifier (present : Bool) (length : Nat) : (s.latchOperands present length).identifier = s.identifier := rfl
@[simp] theorem State.latchOperands_dataLength (present : Bool) (length : Nat) : (s.latchOperands present length).dataLength = s.dataLength := rfl
@[simp] theorem State.latchOperands_payload (present : Bool) (length : Nat) : (s.latchOperands present length).payload = s.payload := rfl
@[simp] theorem State.latchOperands_input (present : Bool) (length : Nat) : (s.latchOperands present length).input = s.input := rfl
@[simp] theorem State.latchOperands_host (present : Bool) (length : Nat) : (s.latchOperands present length).host = s.host := rfl
@[simp] theorem State.latchOperands_resets (present : Bool) (length : Nat) : (s.latchOperands present length).resets = s.resets := rfl

/-! `State.startScan` -/
@[simp] theorem State.startScan_present : (s.startScan).present = s.present := rfl
@[simp] theorem State.startScan_length : (s.startScan).length = s.length := rfl
@[simp] theorem State.startScan_phase : (s.startScan).phase = .run := rfl
@[simp] theorem State.startScan_pstate : (s.startScan).pstate = .seekPreambleHigh := rfl
@[simp] theorem State.startScan_offset : (s.startScan).offset = 0 := rfl
@[simp] theorem State.startScan_fstart : (s.startScan).fstart = s.fstart := rfl
@[simp] theorem State.startScan_sum : (s.startScan).sum = s.sum := rfl
@[simp] theorem State.startScan_outcome : (s.startScan).outcome = s.outcome := rfl
@[simp] theorem State.startScan_identifier : (s.startScan).identifier = s.identifier := rfl
@[simp] theorem State.startScan_dataLength : (s.startScan).dataLength = s.dataLength := rfl
@[simp] theorem State.startScan_payload : (s.startScan).payload = s.payload := rfl
@[simp] theorem State.startScan_input : (s.startScan).input = s.input := rfl
@[simp] theorem State.startScan_host : (s.startScan).host = s.host := rfl
@[simp] theorem State.startScan_resets : (s.startScan).resets = s.resets := rfl

/-! `State.abortScan` -/
@[simp] theorem State.abortScan_present : (s.abortScan).present = s.present := rfl
@[simp] theorem State.abortScan_length : (s.abortScan).length = s.length := rfl
@[simp] theorem State.abortScan_phase : (s.abortScan).phase = s.phase := rfl
@[simp] theorem State.abortScan_pstate : (s.abortScan).pstate = s.pstate := rfl
@[simp] theorem State.abortScan_offset : (s.abortScan).offset = s.length := rfl
@[simp] theorem State.abortScan_fstart : (s.abortScan).fstart = s.fstart := rfl
@[simp] theorem State.abortScan_sum : (s.abortScan).sum = s.sum := rfl
@[simp] theorem State.abortScan_outcome : (s.abortScan).outcome = s.outcome := rfl
@[simp] theorem State.abortScan_identifier : (s.abortScan).identifier = s.identifier := rfl
@[simp] theorem State.abortScan_dataLength : (s.abortScan).dataLength = s.dataLength := rfl
@[simp] theorem State.abortScan_payload : (s.abortScan).payload = s.payload := rfl
@[simp] theorem State.abortScan_input : (s.abortScan).input = s.input := rfl
@[simp] theorem State.abortScan_host : (s.abortScan).host = s.host := rfl
@[simp] theorem State.abortScan_resets : (s.abortScan).resets = s.resets := rfl

/-! `State.raiseOutcome` -/
@[simp] theorem State.raiseOutcome_present (o : FrameOutcome) : (s.raiseOutcome o).present = s.present := rfl
@[simp] theorem State.raiseOutcome_length (o : FrameOutcome) : (s.raiseOutcome o).length = s.length := rfl
@[simp] theorem State.raiseOutcome_phase (o : FrameOutcome) : (s.raiseOutcome o).phase = .done := rfl
@[simp] theorem State.raiseOutcome_pstate (o : FrameOutcome) : (s.raiseOutcome o).pstate = s.pstate := rfl
@[simp] theorem State.raiseOutcome_offset (o : FrameOutcome) : (s.raiseOutcome o).offset = s.offset := rfl
@[simp] theorem State.raiseOutcome_fstart (o : FrameOutcome) : (s.raiseOutcome o).fstart = s.fstart := rfl
@[simp] theorem State.raiseOutcome_sum (o : FrameOutcome) : (s.raiseOutcome o).sum = s.sum := rfl
@[simp] theorem State.raiseOutcome_outcome (o : FrameOutcome) : (s.raiseOutcome o).outcome = o := rfl
@[simp] theorem State.raiseOutcome_identifier (o : FrameOutcome) : (s.raiseOutcome o).identifier = s.identifier := rfl
@[simp] theorem State.raiseOutcome_dataLength (o : FrameOutcome) : (s.raiseOutcome o).dataLength = s.dataLength := rfl
@[simp] theorem State.raiseOutcome_payload (o : FrameOutcome) : (s.raiseOutcome o).payload = s.payload := rfl
@[simp] theorem State.raiseOutcome_input (o : FrameOutcome) : (s.raiseOutcome o).input = s.input := rfl
@[simp] theorem State.raiseOutcome_host (o : FrameOutcome) : (s.raiseOutcome o).host = s.host := rfl
@[simp] theorem State.raiseOutcome_resets (o : FrameOutcome) : (s.raiseOutcome o).resets = s.resets := rfl

/-! `State.hostWrite` -/
@[simp] theorem State.hostWrite_present (a : Nat) (b : Byte) : (s.hostWrite a b).present = s.present := rfl
@[simp] theorem State.hostWrite_length (a : Nat) (b : Byte) : (s.hostWrite a b).length = s.length := rfl
@[simp] theorem State.hostWrite_phase (a : Nat) (b : Byte) : (s.hostWrite a b).phase = s.phase := rfl
@[simp] theorem State.hostWrite_pstate (a : Nat) (b : Byte) : (s.hostWrite a b).pstate = s.pstate := rfl
@[simp] theorem State.hostWrite_offset (a : Nat) (b : Byte) : (s.hostWrite a b).offset = s.offset := rfl
@[simp] theorem State.hostWrite_fstart (a : Nat) (b : Byte) : (s.hostWrite a b).fstart = s.fstart := rfl
@[simp] theorem State.hostWrite_sum (a : Nat) (b : Byte) : (s.hostWrite a b).sum = s.sum := rfl
@[simp] theorem State.hostWrite_outcome (a : Nat) (b : Byte) : (s.hostWrite a b).outcome = s.outcome := rfl
@[simp] theorem State.hostWrite_identifier (a : Nat) (b : Byte) : (s.hostWrite a b).identifier = s.identifier := rfl
@[simp] theorem State.hostWrite_dataLength (a : Nat) (b : Byte) : (s.hostWrite a b).dataLength = s.dataLength := rfl
@[simp] theorem State.hostWrite_payload (a : Nat) (b : Byte) : (s.hostWrite a b).payload = s.payload := rfl
@[simp] theorem State.hostWrite_input (a : Nat) (b : Byte) : (s.hostWrite a b).input = s.input.write a b := rfl
@[simp] theorem State.hostWrite_host (a : Nat) (b : Byte) : (s.hostWrite a b).host = s.host := rfl
@[simp] theorem State.hostWrite_resets (a : Nat) (b : Byte) : (s.hostWrite a b).resets = s.resets := rfl

/-! `State.withHost` -/
@[simp] theorem State.withHost_present (actions : List HostAction) : (s.withHost actions).present = s.present := rfl
@[simp] theorem State.withHost_length (actions : List HostAction) : (s.withHost actions).length = s.length := rfl
@[simp] theorem State.withHost_phase (actions : List HostAction) : (s.withHost actions).phase = s.phase := rfl
@[simp] theorem State.withHost_pstate (actions : List HostAction) : (s.withHost actions).pstate = s.pstate := rfl
@[simp] theorem State.withHost_offset (actions : List HostAction) : (s.withHost actions).offset = s.offset := rfl
@[simp] theorem State.withHost_fstart (actions : List HostAction) : (s.withHost actions).fstart = s.fstart := rfl
@[simp] theorem State.withHost_sum (actions : List HostAction) : (s.withHost actions).sum = s.sum := rfl
@[simp] theorem State.withHost_outcome (actions : List HostAction) : (s.withHost actions).outcome = s.outcome := rfl
@[simp] theorem State.withHost_identifier (actions : List HostAction) : (s.withHost actions).identifier = s.identifier := rfl
@[simp] theorem State.withHost_dataLength (actions : List HostAction) : (s.withHost actions).dataLength = s.dataLength := rfl
@[simp] theorem State.withHost_payload (actions : List HostAction) : (s.withHost actions).payload = s.payload := rfl
@[simp] theorem State.withHost_input (actions : List HostAction) : (s.withHost actions).input = s.input := rfl
@[simp] theorem State.withHost_host (actions : List HostAction) : (s.withHost actions).host = actions := rfl
@[simp] theorem State.withHost_resets (actions : List HostAction) : (s.withHost actions).resets = s.resets := rfl

/-! `State.applyReset` -/
@[simp] theorem State.applyReset_present : (s.applyReset).present = Config.resetPresent s.resets := rfl
@[simp] theorem State.applyReset_length : (s.applyReset).length = Config.resetLength s.resets := rfl
@[simp] theorem State.applyReset_phase : (s.applyReset).phase = .idle := rfl
@[simp] theorem State.applyReset_pstate : (s.applyReset).pstate = .seekPreambleHigh := rfl
@[simp] theorem State.applyReset_offset : (s.applyReset).offset = Config.resetOffset s.resets := rfl
@[simp] theorem State.applyReset_fstart : (s.applyReset).fstart = Config.resetFstart s.resets := rfl
@[simp] theorem State.applyReset_sum : (s.applyReset).sum = Config.resetSum s.resets := rfl
@[simp] theorem State.applyReset_outcome : (s.applyReset).outcome = Config.resetOutcome s.resets := rfl
@[simp] theorem State.applyReset_identifier : (s.applyReset).identifier = Config.resetIdentifier s.resets := rfl
@[simp] theorem State.applyReset_dataLength : (s.applyReset).dataLength = Config.resetDataLength s.resets := rfl
@[simp] theorem State.applyReset_payload : (s.applyReset).payload = Config.resetPayload s.resets := rfl
@[simp] theorem State.applyReset_input : (s.applyReset).input = s.input := rfl
@[simp] theorem State.applyReset_host : (s.applyReset).host = s.host := rfl
@[simp] theorem State.applyReset_resets : (s.applyReset).resets = s.resets + 1 := rfl

end Sys2Proof.Machine
end

