-- ==== Sys2Proof/Laws/Ops.lean ====
section
/-! SUPPORT. What each shared operation can do, said once: MemRead and the fetch's reads (R53, R60), MemWrite (R152),
sequencing, and which row is selected (R113). -/

namespace Sys2Proof.Machine

/-- MemRead answers exactly at the offsets that exist (R11, R50). -/
theorem State.memRead_eq_some_iff {s : State} {a : Nat} {b : Byte} :
    s.memRead a = some b ↔ (s.phase = .run ∧ s.present = true ∧ a < s.length) ∧ s.input.read a = b := by
  unfold State.memRead
  split
  · rename_i h
    simp only [Option.some.injEq]
    exact ⟨fun e => ⟨h, e⟩, fun e => e.2⟩
  · rename_i h
    constructor
    · intro e
      cases e
    · intro e
      exact absurd e.1 h

/-- The reads of a list of offsets all answer exactly when each offset exists, and give the bytes in order. -/
theorem readAll_eq_some_iff {s : State} {offs : List Nat} {bytes : List Byte} :
    readAll s offs = some bytes ↔
      (∀ a ∈ offs, s.phase = .run ∧ s.present = true ∧ a < s.length) ∧ bytes = offs.map s.input.read := by
  induction offs generalizing bytes with
  | nil =>
    constructor
    · intro h
      cases h
      exact ⟨by simp, rfl⟩
    · rintro ⟨-, rfl⟩
      rfl
  | cons a rest ih =>
    simp only [readAll, List.forall_mem_cons, List.map_cons]
    constructor
    · intro h
      split at h
      · cases h
      · rename_i b hb
        split at h
        · cases h
        · rename_i bs hbs
          cases h
          obtain ⟨hin, rfl⟩ := State.memRead_eq_some_iff.mp hb
          obtain ⟨hrest, rfl⟩ := ih.mp hbs
          exact ⟨⟨hin, hrest⟩, rfl⟩
    · rintro ⟨⟨hin, hrest⟩, rfl⟩
      rw [State.memRead_eq_some_iff.mpr ⟨hin, rfl⟩]
      dsimp only
      rw [ih.mpr ⟨hrest, rfl⟩]

/-- A sequence answers a next state exactly when both parts do. -/
theorem andThen_eq_next_iff {o : Host.Outcome State Fault Refusal} {f : State → Host.Outcome State Fault Refusal}
    {t : State} : andThen o f = .next t ↔ ∃ s, o = .next s ∧ f s = .next t := by
  cases o <;> simp [andThen]

@[simp] theorem andThen_next (s : State) (f : State → Host.Outcome State Fault Refusal) :
    andThen (.next s) f = f s := rfl

/-- MemWrite of a list of bytes from cell `k` on: cell `j` takes byte `j - k`, the others stay (R152). -/
theorem storePayload_getElem (p : Vector Byte Config.capacity) (k : Nat) (data : List Byte) (j : Nat)
    (hj : j < Config.capacity) :
    (storePayload p k data)[j] = if k ≤ j then (data[j - k]?).getD p[j] else p[j] := by
  induction data generalizing p k with
  | nil => simp [storePayload]
  | cons v rest ih =>
    rw [storePayload, ih]
    by_cases hk : k + 1 ≤ j
    · have h1 : k ≤ j := by omega
      have h2 : j - k = (j - (k + 1)) + 1 := by omega
      have h3 : k ≠ j := by omega
      simp [hk, h1, h2, h3]
    · by_cases hj' : k = j
      · subst hj'
        simp
      · have h1 : ¬ k ≤ j := by omega
        simp [hk, h1, hj']

theorem State.selector_of_scanning {s : State} (h : s.scanning) : s.selector = .scan s.scanContext := by
  simp only [State.selector, if_pos h]

theorem State.selector_of_not_scanning {s : State} (h : ¬ s.scanning) : s.selector = .finalise := by
  simp only [State.selector, if_neg h]

theorem State.readOffsets_of_scanning {s : State} (hr : s.phase = .run) (h : s.scanning) :
    s.readOffsets = List.range' s.offset (bytesConsumed s.pstate s.dataLength) := by
  simp only [State.readOffsets, if_pos (And.intro hr h)]

theorem State.readOffsets_of_not_scanning {s : State} (h : ¬ s.scanning) : s.readOffsets = [] := by
  have h' : ¬ (s.phase = .run ∧ s.scanning) := fun c => h c.2
  simp only [State.readOffsets, if_neg h']

/-- What the fetch can answer with: the row decoded from the bytes at the offsets of R60, all of which exist. -/
theorem fetch_eq_next_iff {s : State} {i : Instr} :
    fetch s = .next i ↔
      (∀ a ∈ s.readOffsets, s.phase = .run ∧ s.present = true ∧ a < s.length) ∧
      ∃ rest, decode s.selector (s.readOffsets.map s.input.read) = some (i, rest) := by
  unfold fetch
  constructor
  · intro h
    split at h
    · cases h
    · rename_i bytes hb
      obtain ⟨hin, rfl⟩ := readAll_eq_some_iff.mp hb
      split at h
      · cases h
      · rename_i j rest hd
        cases h
        exact ⟨hin, rest, hd⟩
  · rintro ⟨hin, rest, hd⟩
    rw [readAll_eq_some_iff.mpr ⟨hin, rfl⟩]
    dsimp only
    rw [hd]

end Sys2Proof.Machine
end

