-- ==== Sys2Proof/Laws/Exec.lean ====
section
/-! SUPPORT. Inversion of each meaning: if it answers a next state, then its row was enabled (R86, R113) and the next
state is the row's. Proofs about exec cite these and the field lemmas of Laws/State.lean. -/

namespace Sys2Proof.Machine

variable {s t : State}

/-- A guarded meaning answers only under its guard. -/
theorem guarded_next {p : Prop} [Decidable p] {x : State} {r : Refusal}
    (h : (if p then Host.Outcome.next x else .refused r : Host.Outcome State Fault Refusal) = .next t) :
    p ∧ t = x := by
  split at h
  · cases h
    exact ⟨‹p›, rfl⟩
  · cases h

theorem execSphMatch_next (h : execSphMatch s = .next t) :
    s.scanEnabled .seekPreambleHigh ∧ t = (s.beginFrame.goto .seekPreambleLow).advance 1 :=
  guarded_next h

theorem execSphSkip_next {b : Byte} (h : execSphSkip b s = .next t) :
    (s.scanEnabled .seekPreambleHigh ∧ b ≠ Config.preambleHi) ∧ t = s.advance 1 :=
  guarded_next h

theorem execSplMatch_next (h : execSplMatch s = .next t) :
    s.scanEnabled .seekPreambleLow ∧ t = ((s.addToSum [Config.preambleLo]).goto .readHeader).advance 1 :=
  guarded_next h

theorem execSplMiss_next {b : Byte} (h : execSplMiss b s = .next t) :
    (s.scanEnabled .seekPreambleLow ∧ b ≠ Config.preambleLo) ∧ t = (s.goto .seekPreambleHigh).advance 1 :=
  guarded_next h

theorem execRhAccept_next {len ident : Nibble} (h : execRhAccept len ident s = .next t) :
    (s.scanEnabled .readHeader ∧ headerFits s.length s.offset len) ∧
      t = ((s.latchHeader len ident).goto .readPayload).advance 1 :=
  guarded_next h

theorem execRhUnderflow_next {len ident : Nibble} (h : execRhUnderflow len ident s = .next t) :
    (s.scanEnabled .readHeader ∧ ¬ headerFits s.length s.offset len) ∧ t = (s.latchHeader len ident).abortScan :=
  guarded_next h

theorem execRpCopy_next {data : List Byte} (h : execRpCopy data s = .next t) :
    (s.scanEnabled .readPayload ∧ data.length = (clampLength s.dataLength).toNat) ∧
      t = (((s.copyPayload data).addToSum data).goto .readChecksum).advance data.length :=
  guarded_next h

theorem execRcMatch_next {c : Byte} (h : execRcMatch c s = .next t) :
    (s.scanEnabled .readChecksum ∧ c = s.sum) ∧ t = (s.goto .finished).advance 1 :=
  guarded_next h

theorem execRcMismatch_next {c : Byte} (h : execRcMismatch c s = .next t) :
    (s.scanEnabled .readChecksum ∧ c ≠ s.sum) ∧ t = s.abortScan :=
  guarded_next h

theorem execFin_next (h : execFin s = .next t) : s.pstate = .finished ∧ t = s := guarded_next h

theorem execFinalise_next (h : execFinalise s = .next t) :
    s.finaliseEnabled ∧ t = s.raiseOutcome (deriveOutcome s.pstate s.dataLength) :=
  guarded_next h

/-- DECODE always answers a next state; which one is said by PHASE and the entry check (R110 to R112, R121). -/
theorem execDecode_next {present : Bool} {length : Nat} (h : execDecode present length s = .next t) :
    (s.phase = .run ∧ t = s) ∨
      (s.phase ≠ .run ∧ entryFails present length ∧
        t = (s.latchOperands present length).raiseOutcome .notEnoughData) ∨
      (s.phase ≠ .run ∧ ¬ entryFails present length ∧ t = (s.latchOperands present length).startScan) := by
  unfold execDecode at h
  split at h
  · cases h
    exact .inl ⟨‹_›, rfl⟩
  · split at h <;> cases h
    · exact .inr (.inl ⟨‹_›, ‹_›, rfl⟩)
    · exact .inr (.inr ⟨‹_›, ‹_›, rfl⟩)

/-- FRAME answers a next state only through the five states its steps leave (R81). -/
theorem execFrame_next {ident : Nibble} {payload : List Byte} (h : execFrame ident payload s = .next t) :
    ∃ s1 s2 s3 s4, execSphMatch s = .next s1 ∧ execSplMatch s1 = .next s2 ∧
      execRhAccept (payloadLength payload) ident s2 = .next s3 ∧ execRpCopy payload s3 = .next s4 ∧
      execRcMatch (frameChecksum ident payload) s4 = .next t := by
  simp only [execFrame, andThen_eq_next_iff] at h
  obtain ⟨s4, ⟨s3, ⟨s2, ⟨s1, h1, h2⟩, h3⟩, h4⟩, h5⟩ := h
  exact ⟨s1, s2, s3, s4, h1, h2, h3, h4, h5⟩

/-- No meaning touches what stands for the host: its actions and the count of resets. -/
theorem exec_keeps_host {i : Instr} (h : exec i s = .next t) : t.host = s.host ∧ t.resets = s.resets := by
  cases i with
  | sphMatch => obtain ⟨-, rfl⟩ := execSphMatch_next h; exact ⟨rfl, rfl⟩
  | sphSkip b => obtain ⟨-, rfl⟩ := execSphSkip_next h; exact ⟨rfl, rfl⟩
  | splMatch => obtain ⟨-, rfl⟩ := execSplMatch_next h; exact ⟨rfl, rfl⟩
  | splMiss b => obtain ⟨-, rfl⟩ := execSplMiss_next h; exact ⟨rfl, rfl⟩
  | rhAccept len ident => obtain ⟨-, rfl⟩ := execRhAccept_next h; exact ⟨rfl, rfl⟩
  | rhUnderflow len ident => obtain ⟨-, rfl⟩ := execRhUnderflow_next h; exact ⟨rfl, rfl⟩
  | rpCopy data => obtain ⟨-, rfl⟩ := execRpCopy_next h; exact ⟨rfl, rfl⟩
  | rcMatch c => obtain ⟨-, rfl⟩ := execRcMatch_next h; exact ⟨rfl, rfl⟩
  | rcMismatch c => obtain ⟨-, rfl⟩ := execRcMismatch_next h; exact ⟨rfl, rfl⟩
  | fin => obtain ⟨-, rfl⟩ := execFin_next h; exact ⟨rfl, rfl⟩
  | decode present length =>
    obtain ⟨-, rfl⟩ | ⟨-, -, rfl⟩ | ⟨-, -, rfl⟩ := execDecode_next h <;> exact ⟨rfl, rfl⟩
  | finalise => obtain ⟨-, rfl⟩ := execFinalise_next h; exact ⟨rfl, rfl⟩
  | frame ident payload =>
    obtain ⟨s1, s2, s3, s4, h1, h2, h3, h4, h5⟩ := execFrame_next h
    obtain ⟨-, rfl⟩ := execSphMatch_next h1
    obtain ⟨-, rfl⟩ := execSplMatch_next h2
    obtain ⟨-, rfl⟩ := execRhAccept_next h3
    obtain ⟨-, rfl⟩ := execRpCopy_next h4
    obtain ⟨-, rfl⟩ := execRcMatch_next h5
    simp

end Sys2Proof.Machine
end

