-- ==== Sys2Proof/Laws/PerInstr.lean ====
section
/-! SUPPORT. Families of facts stated for every instruction, one lemma a constructor. EncodedLength: how many bytes an
instruction's encoding has (the column "bytes consumed" of R86, R80 for FRAME). -/

namespace Sys2Proof.Laws.EncodedLength

/-- The number of bytes a row consumes. -/
def bytes : Instr → Nat
  | .sphMatch => 1
  | .sphSkip _ => 1
  | .splMatch => 1
  | .splMiss _ => 1
  | .rhAccept _ _ => 1
  | .rhUnderflow _ _ => 1
  | .rpCopy data => data.length
  | .rcMatch _ => 1
  | .rcMismatch _ => 1
  | .fin => 0
  | .decode _ _ => 0
  | .finalise => 0
  | .frame _ payload => 4 + payload.length

/-- The encoding has the row's number of bytes, and a well-formed instruction at most MAX_FRAME (R83). -/
def Statement (i : Instr) : Prop :=
  (encode i).length = bytes i ∧ (i.wellFormed = true → (encode i).length ≤ Config.maxFrame)

theorem one_le_maxFrame : 1 ≤ Config.maxFrame := by decide

theorem sphMatch : Statement .sphMatch := ⟨rfl, fun _ => one_le_maxFrame⟩
theorem sphSkip (b : Byte) : Statement (.sphSkip b) := ⟨rfl, fun _ => one_le_maxFrame⟩
theorem splMatch : Statement .splMatch := ⟨rfl, fun _ => one_le_maxFrame⟩
theorem splMiss (b : Byte) : Statement (.splMiss b) := ⟨rfl, fun _ => one_le_maxFrame⟩
theorem rhAccept (len ident : Nibble) : Statement (.rhAccept len ident) := ⟨rfl, fun _ => one_le_maxFrame⟩
theorem rhUnderflow (len ident : Nibble) : Statement (.rhUnderflow len ident) := ⟨rfl, fun _ => one_le_maxFrame⟩
theorem rpCopy (data : List Byte) : Statement (.rpCopy data) := by
  refine ⟨rfl, fun h => ?_⟩
  simp only [Instr.wellFormed, decide_eq_true_eq] at h
  exact h.trans (by decide)
theorem rcMatch (c : Byte) : Statement (.rcMatch c) := ⟨rfl, fun _ => one_le_maxFrame⟩
theorem rcMismatch (c : Byte) : Statement (.rcMismatch c) := ⟨rfl, fun _ => one_le_maxFrame⟩
theorem fin : Statement .fin := ⟨rfl, fun _ => Nat.zero_le _⟩
theorem decode (present : Bool) (length : Nat) : Statement (.decode present length) := ⟨rfl, fun _ => Nat.zero_le _⟩
theorem finalise : Statement .finalise := ⟨rfl, fun _ => Nat.zero_le _⟩
theorem frame (ident : Nibble) (payload : List Byte) : Statement (.frame ident payload) := by
  have hl : (encode (.frame ident payload)).length = 4 + payload.length := by
    simp [encode, Machine.frameBytes]
    omega
  refine ⟨hl, fun h => ?_⟩
  simp only [Instr.wellFormed, decide_eq_true_eq, Config.capacity] at h
  simp only [hl, Config.maxFrame]
  omega

end Sys2Proof.Laws.EncodedLength
end

