-- ==== Sys2Proof/Laws/Step.lean ====
section
/-! SUPPORT. What one step can do, said once (R113, R64): every proof about step starts from `step_cases` and
`fdStep_run_cases`. -/

namespace Sys2Proof.Machine

variable {s t : State}

/-- A step is FD's own or a host action. -/
theorem step_cases (h : step s = .next t) :
    (s.host = [] ∧ fdStep s = .next t) ∨
    (∃ rest, s.host = .pause :: rest ∧ fdStep (s.withHost rest) = .next t) ∨
    (∃ rest, s.host = .reset :: rest ∧ t = (s.withHost rest).applyReset) ∨
    (∃ present length rest, s.host = .decode present length :: rest ∧
      execDecode present length (s.withHost rest) = .next t) ∨
    (∃ a b rest, s.host = .writeInput a b :: rest ∧ t = (s.withHost rest).hostWrite a b) := by
  unfold step at h
  cases hh : s.host with
  | nil => rw [hh] at h; exact .inl ⟨rfl, h⟩
  | cons a rest =>
    rw [hh] at h
    cases a with
    | pause => exact .inr (.inl ⟨rest, rfl, h⟩)
    | reset => cases h; exact .inr (.inr (.inl ⟨rest, rfl, rfl⟩))
    | decode present length => exact .inr (.inr (.inr (.inl ⟨present, length, rest, rfl, h⟩)))
    | writeInput a b => cases h; exact .inr (.inr (.inr (.inr ⟨a, b, rest, rfl, rfl⟩)))

/-- FD rests while no operation runs (R113). -/
theorem fdStep_rest (h : s.phase ≠ .run) : fdStep s = .next s := by
  unfold fdStep
  cases hp : s.phase with
  | run => exact absurd hp h
  | idle => rfl
  | done => rfl

/-- While an operation runs FD runs the instruction it fetches. -/
theorem fdStep_run {i : Instr} (h : s.phase = .run) (hf : fetch s = .next i) : fdStep s = exec i s := by
  unfold fdStep
  rw [h]
  dsimp only
  rw [hf]

/-- FD's own step answers a next state only by resting, by FINALISE, or by the row R86 reads at the cursor. -/
theorem fdStep_run_cases (hr : s.phase = .run) (h : fdStep s = .next t) :
    (¬ s.scanning ∧ execFinalise s = .next t) ∨
    (s.scanning ∧
      (∀ a ∈ List.range' s.offset (bytesConsumed s.pstate s.dataLength), s.present = true ∧ a < s.length) ∧
      ∃ i rest, decodeScan s.scanContext
          ((List.range' s.offset (bytesConsumed s.pstate s.dataLength)).map s.input.read) = some (i, rest) ∧
        exec i s = .next t) := by
  unfold fdStep at h
  rw [hr] at h
  dsimp only at h
  cases hf : fetch s with
  | fault r => rw [hf] at h; cases h
  | refused r => rw [hf] at h; cases h
  | next i =>
    rw [hf] at h
    obtain ⟨hin, rest, hd⟩ := fetch_eq_next_iff.mp hf
    by_cases hs : s.scanning
    · rw [State.readOffsets_of_scanning hr hs] at hin hd
      rw [State.selector_of_scanning hs] at hd
      exact .inr ⟨hs, fun a ha => (hin a ha).2, i, rest, hd, h⟩
    · rw [State.selector_of_not_scanning hs] at hd
      cases hd
      exact .inl ⟨hs, h⟩

/-- Everything a step of FD can do while an operation runs (R113): FINALISE, or the row of R86 for the byte at the
cursor, each with the state it leaves. `b` is the byte at the cursor. -/
inductive ScanStep (s : State) (b : Byte) : State → Prop where
  | sphMatch (h : s.scanEnabled .seekPreambleHigh) (hb : b = Config.preambleHi) :
      ScanStep s b ((s.beginFrame.goto .seekPreambleLow).advance 1)
  | sphSkip (h : s.scanEnabled .seekPreambleHigh) (hb : b ≠ Config.preambleHi) : ScanStep s b (s.advance 1)
  | splMatch (h : s.scanEnabled .seekPreambleLow) (hb : b = Config.preambleLo) :
      ScanStep s b (((s.addToSum [Config.preambleLo]).goto .readHeader).advance 1)
  | splMiss (h : s.scanEnabled .seekPreambleLow) (hb : b ≠ Config.preambleLo) :
      ScanStep s b ((s.goto .seekPreambleHigh).advance 1)
  | rhAccept (h : s.scanEnabled .readHeader) (hf : headerFits s.length s.offset (hi4 b)) :
      ScanStep s b (((s.latchHeader (hi4 b) (lo4 b)).goto .readPayload).advance 1)
  | rhUnderflow (h : s.scanEnabled .readHeader) (hf : ¬ headerFits s.length s.offset (hi4 b)) :
      ScanStep s b (s.latchHeader (hi4 b) (lo4 b)).abortScan
  | rpCopy (h : s.scanEnabled .readPayload) (data : List Byte)
      (hd : data = (List.range' s.offset s.dataLength.toNat).map s.input.read)
      (hl : ∀ a ∈ List.range' s.offset s.dataLength.toNat, a < s.length) :
      ScanStep s b ((((s.copyPayload data).addToSum data).goto .readChecksum).advance data.length)
  | rcMatch (h : s.scanEnabled .readChecksum) (hb : b = s.sum) : ScanStep s b ((s.goto .finished).advance 1)
  | rcMismatch (h : s.scanEnabled .readChecksum) (hb : b ≠ s.sum) : ScanStep s b s.abortScan

/-- The inversion of FD's own step while an operation runs. -/
theorem fdStep_next_cases (hr : s.phase = .run) (h : fdStep s = .next t) :
    (¬ s.scanning ∧ t = s.raiseOutcome (deriveOutcome s.pstate s.dataLength)) ∨
      (s.scanning ∧ ScanStep s (s.input.read s.offset) t) := by
  obtain ⟨hs, hx⟩ | ⟨hs, hin, i, rest, hd, hx⟩ := fdStep_run_cases hr h
  · exact .inl ⟨hs, (execFinalise_next hx).2⟩
  · refine .inr ⟨hs, ?_⟩
    cases hp : s.pstate with
    | seekPreambleHigh =>
      simp only [hp, bytesConsumed, List.range'_one, List.map_cons, List.map_nil, decodeScan, State.scanContext,
        Option.some.injEq, Prod.mk.injEq] at hd
      obtain ⟨rfl, -⟩ := hd
      split at hx <;> rename_i hb
      · obtain ⟨h1, rfl⟩ := execSphMatch_next hx
        exact .sphMatch h1 hb
      · obtain ⟨⟨h1, -⟩, rfl⟩ := execSphSkip_next hx
        exact .sphSkip h1 hb
    | seekPreambleLow =>
      simp only [hp, bytesConsumed, List.range'_one, List.map_cons, List.map_nil, decodeScan, State.scanContext,
        Option.some.injEq, Prod.mk.injEq] at hd
      obtain ⟨rfl, -⟩ := hd
      split at hx <;> rename_i hb
      · obtain ⟨h1, rfl⟩ := execSplMatch_next hx
        exact .splMatch h1 hb
      · obtain ⟨⟨h1, -⟩, rfl⟩ := execSplMiss_next hx
        exact .splMiss h1 hb
    | readHeader =>
      simp only [hp, bytesConsumed, List.range'_one, List.map_cons, List.map_nil, decodeScan, State.scanContext,
        Option.some.injEq, Prod.mk.injEq] at hd
      obtain ⟨rfl, -⟩ := hd
      split at hx <;> rename_i hf
      · obtain ⟨⟨h1, -⟩, rfl⟩ := execRhAccept_next hx
        exact .rhAccept h1 hf
      · obtain ⟨⟨h1, -⟩, rfl⟩ := execRhUnderflow_next hx
        exact .rhUnderflow h1 hf
    | readPayload =>
      simp only [hp, bytesConsumed, clampLength_eq, decodeScan, State.scanContext, List.length_map,
        List.length_range', le_refl, if_true, Option.some.injEq, Prod.mk.injEq] at hd
      obtain ⟨rfl, -⟩ := hd
      rw [List.take_of_length_le (by simp)] at hx
      obtain ⟨⟨h1, -⟩, rfl⟩ := execRpCopy_next hx
      refine .rpCopy h1 _ rfl fun a ha => (hin a ?_).2
      simpa [hp, bytesConsumed] using ha
    | readChecksum =>
      simp only [hp, bytesConsumed, List.range'_one, List.map_cons, List.map_nil, decodeScan, State.scanContext,
        Option.some.injEq, Prod.mk.injEq] at hd
      obtain ⟨rfl, -⟩ := hd
      split at hx <;> rename_i hb
      · obtain ⟨⟨h1, -⟩, rfl⟩ := execRcMatch_next hx
        exact .rcMatch h1 hb
      · obtain ⟨⟨h1, -⟩, rfl⟩ := execRcMismatch_next hx
        exact .rcMismatch h1 hb
    | finished => exact absurd hp hs.1

/-- One more step of a run. -/
theorem runSteps_succ (k : Nat) (s : State) : runSteps (k + 1) s = andThen (step s) (runSteps k) := rfl

/-- Runs compose. -/
theorem runSteps_add {k l : Nat} {u : State} (h : runSteps k s = .next t) (h' : runSteps l t = .next u) :
    runSteps (k + l) s = .next u := by
  induction k generalizing s with
  | zero => cases h; simpa using h'
  | succ k ih =>
    rw [runSteps_succ, andThen_eq_next_iff] at h
    obtain ⟨s1, h1, h2⟩ := h
    rw [show k + 1 + l = (k + l) + 1 by omega, runSteps_succ, h1]
    exact ih h2

end Sys2Proof.Machine
end

