-- ==== Sys2Proof/Tests/Slice0.lean ====
section
/-! SUPPORT. The tests: ill-formed terms, written words, one step of each instruction against the vectors of
spec/95_test_vectors.md, and for each statement with hypotheses a witness that meets them. -/

namespace Sys2Proof.Tests

open Sys2Proof Sys2Proof.Machine

/-! ## Helpers -/

/-- The source's worked example S1. -/
def example1 : List Byte := [0x44, 0x43, 0x3A, 0x11, 0x22, 0x33, 0x27]

/-- A scanning state: PSTATE, OFFSET, LENGTH and the bytes of IN from offset 0 on. -/
def scanAt (p : PState) (offset length : Nat) (bytes : List Byte) : State :=
  { State.reset with
    present := true, length := length, phase := .run, pstate := p, offset := offset
    input := Memory.writeBytes [] 0 bytes }

/-- The states S1 passes through (spec/95, PROG1). -/
def atSph : State := scanAt .seekPreambleHigh 0 7 example1
def atSpl : State := { scanAt .seekPreambleLow 1 7 example1 with sum := 0x44 }
def atRh : State := { scanAt .readHeader 2 7 example1 with sum := 0x87 }
def atRp : State := { scanAt .readPayload 3 7 example1 with sum := 0xC1, identifier := 10, dataLength := 3 }
def atRc : State :=
  { scanAt .readChecksum 6 7 example1 with
    sum := 0x27, identifier := 10, dataLength := 3
    payload := #v[0x11, 0x22, 0x33, 0, 0, 0, 0, 0, 0, 0, 0, 0, 0, 0, 0] }
def atFin : State := { atRc with pstate := .finished, offset := 7 }

/-- A machine that is done with an earlier operation. -/
def doneState : State := { atFin with phase := .done, outcome := .ok }

/-- The state a step leaves, or the state given where it stops. -/
def nextOr (d : State) : Host.Outcome State Fault Refusal → State
  | .next t => t
  | .fault _ => d
  | .refused _ => d

/-- PSTATE, OFFSET, FSTART and SUM of the next state. -/
def cursor : Host.Outcome State Fault Refusal → Option (PState × Nat × Nat × Byte)
  | .next t => some (t.pstate, t.offset, t.fstart, t.sum)
  | .fault _ => none
  | .refused _ => none

/-- IDENTIFIER, DATALENGTH and the first cells of PAYLOAD of the next state. -/
def fields (n : Nat) : Host.Outcome State Fault Refusal → Option (Nibble × Nibble × List Byte)
  | .next t => some (t.identifier, t.dataLength, t.payload.toList.take n)
  | .fault _ => none
  | .refused _ => none

/-- PHASE and OUTCOME of the next state. -/
def verdict : Host.Outcome State Fault Refusal → Option (Phase × FrameOutcome)
  | .next t => some (t.phase, t.outcome)
  | .fault _ => none
  | .refused _ => none

/-! ## WellFormed: an ill-formed term for each check -/

theorem test_wellFormed_sphSkip : (Instr.sphSkip 0x44).wellFormed = false := by decide
theorem test_wellFormed_splMiss : (Instr.splMiss 0x43).wellFormed = false := by decide
theorem test_wellFormed_rpCopy : (Instr.rpCopy (List.replicate 16 0)).wellFormed = false := by decide
theorem test_wellFormed_frame : (Instr.frame 0 (List.replicate 16 0)).wellFormed = false := by decide

/-! ## Decoding: words written out from R82, R84, R86, R80 -/

theorem test_decode_sphMatch : decodeTableWord 8 0b01000100 = some .sphMatch := by decide
theorem test_decode_sphSkip : decodeTableWord 8 0b11000100 = some (.sphSkip 0xC4) := by decide
theorem test_decode_splMatch : decodeTableWord 8 0b01000011 = some .splMatch := by decide
theorem test_decode_splMiss :
    decode (.scan ⟨.seekPreambleLow, 7, 1, 0, 0x44⟩) [0b01000010] = some (.splMiss 0x42, []) := by decide
/-- spec/95 3.3: LENGTH 19, header F0 at offset 2: remaining 16, need 16. -/
theorem test_decode_rhAccept :
    decode (.scan ⟨.readHeader, 19, 2, 0, 0x87⟩) [0b11110000] = some (.rhAccept 15 0, []) := by decide
/-- spec/95 3.3: LENGTH 18, header F0 at offset 2: remaining 15, need 16. -/
theorem test_decode_rhUnderflow :
    decode (.scan ⟨.readHeader, 18, 2, 0, 0x87⟩) [0b11110000] = some (.rhUnderflow 15 0, []) := by decide
theorem test_decode_rpCopy :
    decode (.scan ⟨.readPayload, 7, 3, 2, 0⟩) [0b01000100, 0b01000011, 9] = some (.rpCopy [0x44, 0x43], [9]) := by
  decide
theorem test_decode_rcMatch :
    decode (.scan ⟨.readChecksum, 7, 6, 3, 0x27⟩) [0b00100111] = some (.rcMatch 0x27, []) := by decide
theorem test_decode_rcMismatch :
    decode (.scan ⟨.readChecksum, 7, 6, 3, 0x27⟩) [0b00101000] = some (.rcMismatch 0x28, []) := by decide
theorem test_decode_fin : decode (.scan ⟨.finished, 7, 7, 3, 0x27⟩) [1] = some (.fin, [1]) := by decide
theorem test_decode_decode : decode (.command true 7) [1] = some (.decode true 7, [1]) := by decide
theorem test_decode_finalise : decode .finalise [] = some (.finalise, []) := by decide
/-- R81: the shortest frame, identifier 5: 44 43 05 8C. -/
theorem test_decode_frame : decodeTableWord 32 0x8C054344 = some (.frame 5 []) := by decide
/-- A wrong checksum byte is no frame (R80). -/
theorem test_decode_no_frame : decodeTableWord 32 0x8D054344 = none := by decide

/-! ## One step of each instruction, from spec/95_test_vectors.md -/

/-- 3.2: SPH, OFFSET 7, byte 44. -/
theorem test_sphMatch :
    cursor (step (scanAt .seekPreambleHigh 7 9 [0, 0, 0, 0, 0, 0, 0, 0x44])) =
      some (.seekPreambleLow, 8, 7, 0x44) := by decide
/-- 3.2: SPH, OFFSET 0, byte C4: skipped, FSTART and SUM unchanged. -/
theorem test_sphSkip :
    cursor (step { scanAt .seekPreambleHigh 0 4 [0xC4] with fstart := 3, sum := 9 }) =
      some (.seekPreambleHigh, 1, 3, 9) := by decide
/-- 3.2: SPL, OFFSET 1, byte 43: SUM 87. -/
theorem test_splMatch : cursor (step atSpl) = some (.readHeader, 2, 0, 0x87) := by decide
/-- 3.2: SPL, OFFSET 1, byte 44: not examined again, SUM stale 44. -/
theorem test_splMiss :
    cursor (step { scanAt .seekPreambleLow 1 5 [0x44, 0x44, 0x43, 0, 0x87] with sum := 0x44 }) =
      some (.seekPreambleHigh, 2, 0, 0x44) := by decide
/-- 3.3: header 3A at offset 2, LENGTH 7: accepted, SUM C1. -/
theorem test_rhAccept : cursor (step atRh) = some (.readPayload, 3, 0, 0xC1) := by decide
theorem test_rhAccept_fields : fields 0 (step atRh) = some (10, 3, []) := by decide
/-- 3.3: header 10 at offset 2, LENGTH 4: underflow, OFFSET 4, fields written. -/
theorem test_rhUnderflow :
    cursor (step { scanAt .readHeader 2 4 [0x44, 0x43, 0x10, 0] with sum := 0x87 }) =
      some (.readHeader, 4, 0, 0x97) := by decide
theorem test_rhUnderflow_fields :
    fields 0 (step { scanAt .readHeader 2 6 example1 with sum := 0x87 }) = some (10, 3, []) := by decide
/-- 3.4: DATALENGTH 0: nothing is read, only PSTATE moves. -/
theorem test_rpCopy_empty :
    cursor (step { scanAt .readPayload 3 4 [0x44, 0x43, 0x05, 0x8C] with sum := 0x8C }) =
      some (.readChecksum, 3, 0, 0x8C) := by decide
/-- 3.4: DATALENGTH 2, bytes 44 43: SUM B0 gives 37; the third cell keeps its value. -/
theorem test_rpCopy :
    fields 3 (step { scanAt .readPayload 3 9 [0x44, 0x43, 0x29, 0x44, 0x43, 0x37] with
      sum := 0xB0, dataLength := 2, payload := Vector.replicate 15 0xEE }) = some (0, 2, [0x44, 0x43, 0xEE]) := by
  decide
/-- 3.5: SUM 27, byte 27 at offset 6, LENGTH 7. -/
theorem test_rcMatch : cursor (step atRc) = some (.finished, 7, 0, 0x27) := by decide
/-- 3.5: SUM 27, byte 26 at offset 6, LENGTH 10: OFFSET 10. -/
theorem test_rcMismatch :
    cursor (step { scanAt .readChecksum 6 10 [0x44, 0x43, 0x3A, 0x11, 0x22, 0x33, 0x26] with
      sum := 0x27, dataLength := 3 }) = some (.readChecksum, 10, 0, 0x27) := by decide
/-- R163: FIN writes nothing. -/
theorem test_fin : cursor (exec .fin atFin) = some (.finished, 7, 0, 0x27) := by decide
/-- 3.1: DECODE(1, 3) ends at once, DECODE(1, 4) starts the scan. -/
theorem test_decode_short : verdict (exec (.decode true 3) State.reset) = some (.done, .notEnoughData) := by decide
theorem test_decode_starts :
    cursor (exec (.decode true 4) { doneState with offset := 7 }) = some (.seekPreambleHigh, 0, 0, 0x27) := by decide
/-- 3.6: FIN with DATALENGTH 3 gives Ok, RC gives WrongChecksum. -/
theorem test_finalise_ok : verdict (step atFin) = some (.done, .ok) := by decide
theorem test_finalise_rc : verdict (exec .finalise { atRc with offset := 7 }) = some (.done, .wrongChecksum) := by
  decide
/-- R80, S1: the whole frame taken at once. -/
theorem test_frame : cursor (exec (.frame 10 [0x11, 0x22, 0x33]) atSph) = some (.finished, 7, 0, 0x27) := by decide
/-- R96: the checksum of FRAME(0; 69) wraps to 00 (spec/95 V16). -/
theorem test_frameBytes_wrap : frameBytes 0 [0x69] = [0x44, 0x43, 0x10, 0x69, 0x00] := by decide
/-- R122 by the reference function on S1. -/
theorem test_decodeRef : (decodeRef true 7 atSph.input).outcome = .ok := by decide
/-- A table word placed for the fetch runs as the first instruction after reset. -/
theorem test_withFetchWord :
    cursor (step (State.reset.withFetchWord 8 0x44)) = some (.seekPreambleLow, 1, 0, 0x44) := by decide

/-! ## Witnesses: states and operands that meet the hypotheses of the statements -/

theorem atSph_inv : operationInv atSph := by
  refine ⟨by decide, ?_, ?_, ?_, ?_⟩ <;> simp only [rangeInv, sumInv, candidateInv, candidateInBuffer, scanLive] <;> decide
theorem atSpl_inv : operationInv atSpl := by
  refine ⟨by decide, ?_, ?_, ?_, ?_⟩ <;> simp only [rangeInv, sumInv, candidateInv, candidateInBuffer, scanLive] <;> decide
theorem atRh_inv : operationInv atRh := by
  refine ⟨by decide, ?_, ?_, ?_, ?_⟩ <;> simp only [rangeInv, sumInv, candidateInv, candidateInBuffer, scanLive] <;> decide
theorem atRp_inv : operationInv atRp := by
  refine ⟨by decide, ?_, ?_, ?_, ?_⟩ <;> simp only [rangeInv, sumInv, candidateInv, candidateInBuffer, scanLive] <;> decide
theorem atRc_inv : operationInv atRc := by
  refine ⟨by decide, ?_, ?_, ?_, ?_⟩ <;> simp only [rangeInv, sumInv, candidateInv, candidateInBuffer, scanLive] <;> decide
theorem atFin_inv : operationInv atFin := by
  refine ⟨by decide, ?_, ?_, ?_, ?_⟩ <;> simp only [rangeInv, sumInv, candidateInv, candidateInBuffer, scanLive] <;> decide

/-- Whether a step answers a next state. -/
def isNext : Host.Outcome State Fault Refusal → Bool
  | .next _ => true
  | .fault _ => false
  | .refused _ => false

theorem exists_next {o : Host.Outcome State Fault Refusal} (h : isNext o = true) : ∃ t, o = .next t := by
  cases o with
  | next t => exact ⟨t, rfl⟩
  | fault r => cases h
  | refused r => cases h

/-- Nothing is assumed of the state but the host's next action. -/
theorem witness_ResetGivesIdleMachine : (atRp.withHost [.reset, .pause]).host = .reset :: [.pause] := rfl

/-- One failing operand at a time, each at its boundary: absent with LENGTH 4, present with LENGTH 3. -/
theorem witness_DecodeEntryCheckFails :
    (State.reset.phase ≠ .run ∧ ((false : Bool) = false ∨ 4 < 4)) ∧
      (doneState.phase ≠ .run ∧ ((true : Bool) = false ∨ 3 < 4)) := by decide

theorem witness_DecodeStartsScan : State.reset.phase ≠ .run ∧ doneState.phase ≠ .run ∧ 4 ≤ 4 := by decide

theorem witness_DecodeIgnoredWhileRunning :
    atRp.phase = .run ∧ (atRp.withHost [.decode true 0]).phase = .run ∧
      (atRp.withHost [.decode true 0]).host = .decode true 0 :: [] := by decide

/-- The cursor on the last byte of the buffer. -/
theorem witness_SeekPreambleHighStep :
    (scanAt .seekPreambleHigh 6 7 example1).scanEnabled .seekPreambleHigh ∧
      (scanAt .seekPreambleHigh 6 7 example1).present = true ∧ (0x45 : Byte) ≠ 0x44 := by decide

theorem witness_SeekPreambleLowStep :
    (scanAt .seekPreambleLow 6 7 example1).scanEnabled .seekPreambleLow ∧
      (scanAt .seekPreambleLow 6 7 example1).present = true ∧ (0x44 : Byte) ≠ 0x43 := by decide

/-- Header F0 at offset 2: LENGTH 19 is the least that fits, LENGTH 18 the greatest that does not; and with N = 0 the
header on the last byte but one and on the last. -/
theorem witness_ReadHeaderStep :
    ((scanAt .readHeader 2 19 example1).scanEnabled .readHeader ∧ 2 + (15 : Nibble).toNat + 2 ≤ 19) ∧
      ((scanAt .readHeader 2 18 example1).scanEnabled .readHeader ∧ 18 < 2 + (15 : Nibble).toNat + 2) ∧
      ((scanAt .readHeader 2 4 example1).scanEnabled .readHeader ∧ 2 + (0 : Nibble).toNat + 2 ≤ 4) ∧
      ((scanAt .readHeader 3 4 example1).scanEnabled .readHeader ∧ 4 < 3 + (0 : Nibble).toNat + 2) := by decide

theorem witness_SufficiencyTestSelectsTheRow :
    (atRh.scanEnabled .readHeader ∧ atRh.present = true ∧ 2 + (0x3A : Byte).toNat / 16 + 2 ≤ atRh.length) ∧
      ((scanAt .readHeader 2 6 example1).scanEnabled .readHeader ∧ ¬ 2 + (0x3A : Byte).toNat / 16 + 2 ≤ 6) := by
  decide

/-- DATALENGTH 3, 0 and 15, the reads ending on the last byte but one or on the last. -/
theorem witness_ReadPayloadStep :
    (atRp.scanEnabled .readPayload ∧ [0x11, 0x22, (0x33 : Byte)].length = atRp.dataLength.toNat ∧
      atRp.present = true ∧ atRp.offset + atRp.dataLength.toNat ≤ atRp.length) ∧
    ((scanAt .readPayload 3 4 []).scanEnabled .readPayload ∧
      ([] : List Byte).length = (scanAt .readPayload 3 4 []).dataLength.toNat) ∧
    ({ scanAt .readPayload 3 18 [] with dataLength := 15 }.scanEnabled .readPayload ∧
      (List.replicate 15 (0xFF : Byte)).length = (15 : Nibble).toNat ∧ 3 + (15 : Nibble).toNat ≤ 18) := by decide

theorem witness_ReadChecksumStep :
    atRc.scanEnabled .readChecksum ∧ (0x28 : Byte) ≠ atRc.sum ∧ rangeInv atRc ∧ sumInv atRc :=
  ⟨by decide, by decide, atRc_inv.2.1, atRc_inv.2.2.1⟩

/-- FIN with the cursor at LENGTH and below it. -/
theorem witness_FinishedIsTerminal :
    atFin.pstate = .finished ∧ atFin.phase = .run ∧ ownStep .sphMatch = true ∧ Instr.sphMatch ≠ .finalise ∧
      isNext (exec .finalise atFin) = true ∧ { atFin with length := 9 }.pstate = .finished := by decide

theorem witness_FinRowWritesNothing : atFin.pstate = .finished ∧ atRc.pstate ≠ .finished := by decide

/-- Each case of PSTATE, the cursor at LENGTH; FIN also with bytes left, with DATALENGTH 1 and 0. -/
theorem witness_FinaliseDerivesOutcome :
    (∀ p : PState, (scanAt p 7 7 example1).phase = .run ∧ (scanAt p 7 7 example1).pstate = p ∧
      (scanAt p 7 7 example1).length ≤ (scanAt p 7 7 example1).offset) ∧
    ({ atFin with dataLength := 1, length := 9 }.pstate = .finished ∧ 0 < (1 : Nibble).toNat) ∧
    ({ atFin with dataLength := 0, length := 9 }.pstate = .finished ∧ (0 : Nibble).toNat = 0) :=
  ⟨fun _ => ⟨rfl, rfl, Nat.le_refl 7⟩, by decide, by decide⟩

/-- The empty payload and the longest, each filling the buffer exactly. -/
theorem witness_FrameDecodesItself :
    (atSph.phase = .run ∧ atSph.pstate = .seekPreambleHigh ∧ atSph.offset + 4 + 3 ≤ atSph.length) ∧
      (scanAt .seekPreambleHigh 0 4 []).offset + 4 + ([] : List Byte).length ≤ 4 ∧
      (List.replicate 15 (0xFF : Byte)).length ≤ 15 ∧ 0 + 4 + (List.replicate 15 (0xFF : Byte)).length ≤ 19 := by
  decide

theorem witness_FiveStepsAreOneFrame :
    (atSph.phase = .run ∧ atSph.pstate = .seekPreambleHigh ∧ atSph.present = true ∧ atSph.host = [] ∧
      atSph.offset + 4 + 3 ≤ atSph.length ∧
      atSph.input.holds atSph.offset (frameBytes 10 [0x11, 0x22, 0x33]) = true) ∧
    ((scanAt .seekPreambleHigh 1 5 [0x43, 0x44, 0x43, 0x05, 0x8C]).offset + 4 + ([] : List Byte).length ≤ 5 ∧
      (scanAt .seekPreambleHigh 1 5 [0x43, 0x44, 0x43, 0x05, 0x8C]).input.holds 1 (frameBytes 5 []) = true) := by
  decide

/-- FD steps on its own and after a pause, in Run and in Done; and the host commands. -/
theorem witness_StepRunsDecodedInstruction :
    (hostQuiet atRp ∧ hostQuiet (atRp.withHost [.pause])) ∧
      (atRp.phase = .run ∧ (∀ a ∈ atRp.readOffsets, atRp.present = true ∧ a < atRp.length) ∧
        decode atRp.selector (atRp.readOffsets.map atRp.input.read) = some (.rpCopy [0x11, 0x22, 0x33], [])) ∧
      (hostQuiet doneState ∧ doneState.phase ≠ .run) ∧
      (doneState.withHost [.decode true 4]).host = .decode true 4 :: [] :=
  ⟨⟨.inl rfl, .inr ⟨[], rfl⟩⟩, by decide, ⟨.inl rfl, by decide⟩, rfl⟩

theorem witness_ExactlySelectedRowsRun :
    (ownStep (.rcMatch 0x27) = true ∧ atRc.phase = .run ∧ rowApplies atRc.selector (.rcMatch 0x27) = true) ∧
      (ownStep (.rcMismatch 0x27) = true ∧ ¬ (atRc.phase = .run ∧ rowApplies atRc.selector (.rcMismatch 0x27) = true)) ∧
      (ownStep .finalise = true ∧ atFin.phase = .run ∧ rowApplies atFin.selector .finalise = true) := by decide

theorem witness_DecodeOfEncodeIsIdentity :
    rowApplies (.scan ⟨.readPayload, 19, 3, 15, 0⟩) (.rpCopy (List.replicate 15 0xFF)) = true ∧
      rowApplies .frame (.frame 15 (List.replicate 15 0xFF)) = true ∧
      (Instr.frame 15 (List.replicate 15 0xFF)).wellFormed = true ∧ (Instr.rpCopy []).wellFormed = true := by decide

theorem witness_EncodeOfDecodeIsIdentity :
    decode (.scan ⟨.readHeader, 7, 2, 0, 0x87⟩) [0x3A, 0x11] = some (.rhAccept 3 10, [0x11]) := by decide

/-- Just enough bytes, with none to take and with 15. -/
theorem witness_ExactlyOneRowApplies :
    bytesConsumed .readPayload 0 ≤ ([] : List Byte).length ∧
      bytesConsumed .readPayload 15 ≤ (List.replicate 15 (0 : Byte)).length ∧
      bytesConsumed .readChecksum 15 ≤ [(0x27 : Byte)].length := by decide

theorem witness_WriterTableHolds :
    (∃ t, exec (.rpCopy [0x11, 0x22, 0x33]) atRp = .next t) ∧ Register.fstart ∉ writtenBy (.rpCopy [0x11, 0x22, 0x33]) ∧
      cellsStored (.rpCopy [0x11, 0x22, 0x33]) ≤ (3 : Fin 15).val :=
  ⟨exists_next (by decide), by decide, by decide⟩

theorem witness_RangeInvariantKept : rangeInv atRh ∧ ∃ t, step atRh = .next t :=
  ⟨atRh_inv.2.1, exists_next (by decide)⟩

theorem witness_NoStepStops : rangeInv atRp ∧ rangeInv doneState :=
  ⟨atRp_inv.2.1, fun h => absurd h (by decide)⟩

/-- A host that stores while BUSY and keeps R215: at LENGTH, and the byte that is there already; and one that does
not: another byte at LENGTH - 1. -/
theorem test_hostObeys :
    atRp.phase = .run ∧ hostObeys (atRp.withHost [.writeInput 7 0xAA]) ∧
      hostObeys (atRp.withHost [.writeInput 6 0x27]) ∧ ¬ hostObeys (atRp.withHost [.writeInput 6 0x28]) := by
  refine ⟨rfl, ?_, ?_, ?_⟩ <;> simp only [hostObeys, State.withHost] <;> decide

/-- FD steps, and the host stores at LENGTH in Run. -/
theorem witness_SumIsTheChecksum :
    (rangeInv atRp ∧ sumInv atRp ∧ hostObeys atRp ∧ ∃ t, step atRp = .next t) ∧
      (rangeInv (atRp.withHost [.writeInput 7 0xAA]) ∧ sumInv (atRp.withHost [.writeInput 7 0xAA]) ∧
        hostObeys (atRp.withHost [.writeInput 7 0xAA]) ∧ ∃ t, step (atRp.withHost [.writeInput 7 0xAA]) = .next t) :=
  ⟨⟨atRp_inv.2.1, atRp_inv.2.2.1, trivial, exists_next (by decide)⟩,
    ⟨atRp_inv.2.1, atRp_inv.2.2.1, test_hostObeys.2.1, exists_next (by decide)⟩⟩

theorem witness_OperationInvariantKept :
    (operationInv atRc ∧ hostObeys atRc ∧ ∃ t, step atRc = .next t) ∧
      (operationInv (atRp.withHost [.writeInput 7 0xAA]) ∧ hostObeys (atRp.withHost [.writeInput 7 0xAA]) ∧
        ∃ t, step (atRp.withHost [.writeInput 7 0xAA]) = .next t) ∧
      (operationInv atSph ∧ hostObeys (atSph.withHost [.pause])) ∧ operationInv atSpl :=
  ⟨⟨atRc_inv, trivial, exists_next (by decide)⟩, ⟨atRp_inv, test_hostObeys.2.1, exists_next (by decide)⟩,
    ⟨atSph_inv, trivial⟩, atSpl_inv⟩

/-- A host that stores a byte in Done and in Run, and one that does not. -/
theorem witness_InputKeepsCanonicalForm :
    (doneState.input.wf = true ∧ (doneState.withHost [.writeInput 3 0]).host = .writeInput 3 0 :: [] ∧
      isNext (step (doneState.withHost [.writeInput 3 0])) = true) ∧
    (atRp.input.wf = true ∧ (atRp.withHost [.writeInput 3 0]).phase = .run ∧
      (atRp.withHost [.writeInput 3 0]).host = .writeInput 3 0 :: [] ∧
      isNext (step (atRp.withHost [.writeInput 3 0])) = true) ∧
    (atRp.input.wf = true ∧ isNext (step atRp) = true ∧ ∀ a b rest, atRp.host ≠ .writeInput a b :: rest) :=
  ⟨by decide, by decide, by decide, by decide, nofun⟩

/-- The empty frame of spec/95 V18, at its end. -/
def emptyFin : State :=
  { scanAt .finished 4 4 [0x44, 0x43, 0x05, 0x8C] with sum := 0x8C, identifier := 5 }

/-- Operations that end with Ok, MessageEmpty, and, at a cursor past the buffer's end, the failures. -/
theorem witness_ValidFieldsDescribeTheFrame :
    (rangeInv atFin ∧ candidateInv atFin ∧ atFin.phase = .run ∧ hostQuiet atFin ∧ verdict (step atFin) = some (.done, .ok)) ∧
      (rangeInv emptyFin ∧ candidateInv emptyFin ∧ emptyFin.phase = .run ∧ hostQuiet emptyFin ∧ verdict (step emptyFin) = some (.done, .messageEmpty)) ∧
      (rangeInv (scanAt .seekPreambleHigh 7 7 example1) ∧ candidateInv (scanAt .seekPreambleHigh 7 7 example1) ∧
        verdict (step (scanAt .seekPreambleHigh 7 7 example1)) = some (.done, .wrongHeader)) := by
  refine ⟨⟨atFin_inv.2.1, atFin_inv.2.2.2.1, rfl, .inl rfl, by decide⟩, ⟨?_, ?_, rfl, .inl rfl, by decide⟩,
    ?_, ?_, by decide⟩ <;> simp only [rangeInv, candidateInv] <;> decide

theorem witness_OnlyGraphEdgesAreTaken :
    (rangeInv atRc ∧ hostQuiet atRc ∧ atRc.phase = .run ∧ atRc.scanning ∧ ∃ t, step atRc = .next t) ∧
      (rangeInv atFin ∧ hostQuiet atFin ∧ atFin.phase = .run ∧ ¬ atFin.scanning ∧ ∃ t, step atFin = .next t) :=
  ⟨⟨atRc_inv.2.1, .inl rfl, rfl, by decide, exists_next (by decide)⟩,
    ⟨atFin_inv.2.1, .inl rfl, rfl, by decide, exists_next (by decide)⟩⟩

/-- The last payload byte is at LENGTH - 2; the last cell is 14. -/
theorem witness_AccessesStayInBounds :
    (rangeInv atRp ∧ 5 ∈ stepReads atRp) ∧ cellsStored (.rpCopy (List.replicate 15 0)) = 15 ∧
      isNext (exec (.rpCopy (List.replicate 15 0)) { scanAt .readPayload 3 19 [] with dataLength := 15 }) = true :=
  ⟨⟨atRp_inv.2.1, by decide⟩, by decide, by decide⟩

theorem witness_EachOffsetReadOnceInOrder : doneState.phase ≠ .run ∧ State.reset.phase ≠ .run := by decide

theorem witness_FailedEntryCheckReadsNothing :
    doneState.phase ≠ .run ∧ ((true : Bool) = false ∨ 3 < 4) ∧ ((false : Bool) = false ∨ 4 < 4) := by decide

/-- Another IN, which differs from the first at offset 0 only, which RC does not read. -/
theorem witness_StepSeesOnlyBytesItReads :
    hostQuiet atRc ∧ (∀ a ∈ stepReads atRc, (atRc.input.write 0 9).read a = atRc.input.read a) ∧
      (atRc.input.write 0 9).read 0 ≠ atRc.input.read 0 ∧ ∃ t, step atRc = .next t :=
  ⟨.inl rfl, by decide, by decide, exists_next (by decide)⟩

/-- A store at the last offset already read, at LENGTH, and, at the cursor, of the byte that is there. -/
theorem witness_StoresOffTheScanAreInvisible :
    rangeInv atRp ∧ atRp.phase = .run ∧
      (∀ c ∈ [(2, 0xAA), (7, 0xAA), (3, (0x11 : Byte))], ∀ x, 3 ≤ x → x < 7 →
        (atRp.input.write c.1 c.2).read x = atRp.input.read x) ∧
      (atRp.input.write 2 0xAA).read 2 ≠ atRp.input.read 2 ∧ atRp.offset = 3 ∧ atRp.length = 7 ∧
      ∃ t, runSteps 3 (atRp.withHost []) = .next t := by
  refine ⟨atRp_inv.2.1, rfl, fun c hc x h3 h7 => ?_, by decide, rfl, rfl, exists_next (by decide)⟩
  have h : ∀ c ∈ [(2, 0xAA), (7, 0xAA), (3, (0x11 : Byte))], ∀ x : Fin 7, 3 ≤ x.val →
      (atRp.input.write c.1 c.2).read x = atRp.input.read x := by decide
  exact h c hc ⟨x, h7⟩ h3

theorem witness_EveryOperationEnds : rangeInv atSph ∧ atSph.phase = .run ∧ atSph.host = [] :=
  ⟨atSph_inv.2.1, rfl, rfl⟩

/-- A step inside an operation, its last step, the DECODE that ends one at once, from Idle and from Done with the old
outcome Ok, and a step of a Done machine. -/
theorem witness_OneOutcomePerOperation :
    (isNext (step atRp) = true ∧ ∀ rest, atRp.host ≠ .reset :: rest) ∧
      (atFin.phase = .run ∧ verdict (step atFin) = some (.done, .ok) ∧ ∀ rest, atFin.host ≠ .reset :: rest) ∧
      (State.reset.phase = .idle ∧
        verdict (step (State.reset.withHost [.decode true 3])) = some (.done, .notEnoughData)) ∧
      (doneState.phase ≠ .run ∧ doneState.outcome = .ok ∧
        (doneState.withHost [.decode false 4]).host = .decode false 4 :: [] ∧ ((false : Bool) = false ∨ 4 < 4) ∧
        verdict (step (doneState.withHost [.decode false 4])) = some (.done, .notEnoughData) ∧
        verdict (step (doneState.withHost [.decode true 3])) = some (.done, .notEnoughData)) ∧
      (doneState.phase = .done ∧ (∀ present length rest, doneState.host ≠ .decode present length :: rest) ∧
        isNext (step doneState) = true) :=
  ⟨⟨by decide, nofun⟩, ⟨rfl, by decide, nofun⟩, by decide, by decide, rfl, nofun, by decide⟩

/-- A Done machine does not meet operationEnds before it takes the DECODE: this one keeps PHASE = Done and a stale Ok
until then, and the operation that follows ends with NotEnoughData. -/
theorem test_operationEnds_takes_the_decode :
    runSteps 0 (doneState.withHost [.decode true 3]) = .next (doneState.withHost [.decode true 3]) ∧
      verdict (runSteps 1 (doneState.withHost [.decode true 3])) = some (.done, .notEnoughData) :=
  ⟨rfl, by decide⟩

theorem witness_OperationMatchesReference : doneState.phase ≠ .run ∧ State.reset.phase ≠ .run := by decide

/-- Two machines with different registers, and different bytes of IN at LENGTH. -/
theorem witness_NothingCarriesOver :
    doneState.phase ≠ .run ∧ State.reset.phase ≠ .run ∧
      (∀ a, a < 7 → doneState.input.read a = (doneState.input.write 7 1).read a) ∧
      doneState.input.read 7 ≠ (doneState.input.write 7 1).read 7 := by decide

/-- A stale FSTART and OUTCOME in Run, and a stale cell at DATALENGTH. -/
theorem witness_StaleRegistersStayHidden :
    sameForHost atRc { atRc with fstart := 9, outcome := .wrongHeader, payload := atRc.payload.set 3 7 } ∧
      ∃ t, step atRc = .next t := by
  refine ⟨⟨rfl, rfl, rfl, fun _ => ⟨rfl, rfl, rfl, rfl, fun _ => rfl, fun _ => ⟨rfl, rfl⟩, fun _ => ?_⟩, nofun⟩,
    exists_next (by decide)⟩
  unfold samePayload
  decide

/-- A frame after leading bytes, filling the buffer; and the empty one with bytes after it. -/
theorem witness_FrameIsDecodedWholly :
    ((∀ b ∈ [(0x43 : Byte)], b ≠ 0x44) ∧ [0x11, 0x22, (0x33 : Byte)].length ≤ 15 ∧
      (Memory.writeBytes [] 0 (0x43 :: example1)).holds 0 ([0x43] ++ frameBytes 10 [0x11, 0x22, 0x33]) = true ∧
      ([0x43] ++ frameBytes 10 [0x11, 0x22, 0x33]).length ≤ 8) ∧
    ((Memory.writeBytes [] 0 [0x44, 0x43, 0x05, 0x8C, 0xFF]).holds 0 ([] ++ frameBytes 5 []) = true ∧
      ([] ++ frameBytes 5 []).length ≤ 5) := by decide

/-- spec/95 V9: the last byte 28; and V21: a payload byte changed. -/
theorem witness_CorruptionGivesWrongChecksum :
    (doneState.phase ≠ .run ∧ ([] : List Byte).length + 4 + [0x11, 0x22, (0x33 : Byte)].length ≤ 7) ∧
      ((0x28 : Byte) ≠ frameChecksum 10 [0x11, 0x22, 0x33] ∧
        (Memory.writeBytes [] 0 [0x44, 0x43, 0x3A, 0x11, 0x22, 0x33, 0x28]).holds 0
          ([] ++ [0x44, 0x43, headerByte (payloadLength [0x11, 0x22, 0x33]) 10] ++ [0x11, 0x22, 0x33] ++ [0x28]) = true) ∧
      ((0x23 : Byte) ≠ [0x11, 0x22, (0x33 : Byte)][1] ∧
        (Memory.writeBytes [] 0 [0x44, 0x43, 0x3A, 0x11, 0x23, 0x33, 0x27]).holds 0
          ([] ++ [0x44, 0x43, headerByte (payloadLength [0x11, 0x22, 0x33]) 10] ++ [0x11, 0x22, (0x33 : Byte)].set 1 0x23
            ++ [frameChecksum 10 [0x11, 0x22, 0x33]]) = true) := by decide

/-- S1 without its last byte, cut to nothing, and cut to its preamble after two other bytes. -/
theorem witness_TruncationGivesNotEnoughData :
    (6 ≤ 3 + [0x11, 0x22, (0x33 : Byte)].length ∧
      atSph.input.holds 0 ([] ++ (frameBytes 10 [0x11, 0x22, 0x33]).take 6) = true) ∧
    atSph.input.holds 0 ([] ++ (frameBytes 10 [0x11, 0x22, 0x33]).take 0) = true ∧
    ((∀ b ∈ [0x00, (0x43 : Byte)], b ≠ 0x44) ∧ (2 ≤ 2) ∧
      (Memory.writeBytes [] 0 [0x00, 0x43, 0x44, 0x43]).holds 0
        ([0x00, 0x43] ++ (frameBytes 10 [0x11, 0x22, 0x33]).take 2) = true) := by decide

/-- spec/95 V5: a buffer that ends in 44. -/
theorem witness_NoPreambleGivesWrongHeader :
    State.reset.phase ≠ .run ∧ 4 ≤ 4 ∧ noPreamblePair (Memory.writeBytes [] 0 [0, 0, 0, 0x44]) 4 := by
  refine ⟨by decide, by decide, fun j hj => ?_⟩
  have h : ∀ j : Fin 3, ¬ ((Memory.writeBytes [] 0 [0, 0, 0, 0x44]).read j = Config.preambleHi ∧
    (Memory.writeBytes [] 0 [0, 0, 0, 0x44]).read (j + 1) = Config.preambleLo) := by decide
  exact h ⟨j, by omega⟩

/-- spec/95 V7 and V19: runs of 2 and 3; and the run of 0, the 0x43 on the last byte. -/
theorem witness_OddRunsOfPreambleByteLock :
    ({ atSpl with input := [(1, 0x44)] }.scanEnabled .seekPreambleLow ∧ atSpl.present = true ∧ atSpl.host = [] ∧
      Memory.read [(1, 0x44)] atSpl.offset = 0x44) ∧
    (atSph.phase = .run ∧ atSph.pstate = .seekPreambleHigh ∧ atSph.present = true ∧ atSph.host = []) ∧
    (0 + 2 + 1 ≤ 5 ∧ (Memory.writeBytes [] 0 [0x44, 0x44, 0x43, 0, 0x87]).holds 0 (List.replicate 2 0x44 ++ [0x43]) = true) ∧
    (0 + 3 + 1 ≤ 6 ∧ (Memory.writeBytes [] 0 [0x44, 0x44, 0x44, 0x43, 0, 0x87]).holds 0
      (List.replicate 3 0x44 ++ [0x43]) = true) ∧
    (3 + 0 + 1 ≤ 4 ∧ (Memory.writeBytes [] 0 [0x44, 0x44, 0x44, 0x43]).holds 3 (List.replicate 0 0x44 ++ [0x43]) = true) := by
  decide

theorem witness_AbortEndsTheOperation :
    (({ atRh with length := 6 } : State).host = [] ∧ ∃ t, exec (.rhUnderflow 3 10) { atRh with length := 6 } = .next t) ∧
      (atRc.host = [] ∧ ∃ t, exec (.rcMismatch 0x28) atRc = .next t) :=
  ⟨⟨rfl, exists_next (by decide)⟩, ⟨rfl, exists_next (by decide)⟩⟩

theorem witness_DoneMachineHoldsItsFrame :
    doneState.phase = .done ∧ (∀ rest, (doneState.withHost [.writeInput 0 1]).host ≠ .reset :: rest) ∧
      (∀ present length rest, (doneState.withHost [.writeInput 0 1]).host ≠ .decode present length :: rest) :=
  ⟨rfl, nofun, nofun⟩

theorem witness_AcceptedFrameReachesChecksum :
    rangeInv atRp ∧ atRp.host = [] ∧ atRp.phase = .run ∧ atRp.pstate = .readPayload ∧ ∃ t, step atRp = .next t :=
  ⟨atRp_inv.2.1, rfl, rfl, rfl, exists_next (by decide)⟩

/-- LENGTH 7 is the greatest of 3 bits. -/
theorem witness_CursorFitsWidthOfLength :
    3 ≤ 3 ∧ rangeInv atRp ∧ hostQuiet atRp ∧ atRp.phase = .run ∧ atRp.length < 2 ^ 3 ∧ ∃ t, step atRp = .next t :=
  ⟨by decide, atRp_inv.2.1, .inl rfl, rfl, by decide, exists_next (by decide)⟩

end Sys2Proof.Tests
end

section
/-! The width of the cursor registers (R8, R34, D4): no step of FD computes a value above LENGTH. -/

namespace Sys2Proof.Machine

variable {s t : State} {b : Byte}

/-- Where the host leaves FD alone, a step is FD's own, taken from the state without the pause. -/
theorem step_of_hostQuiet (hq : hostQuiet s) : step s = fdStep s.afterPause := by
  obtain hh | ⟨rest, hh⟩ := hq
  · have hs : s.afterPause = s := by
      cases s
      cases hh
      rfl
    rw [hs, step, hh]
  · rw [step, State.afterPause, hh]
    rfl

/-- The range invariants do not speak of the host's actions. -/
@[simp] theorem rangeInv_withHost (actions : List HostAction) : rangeInv (s.withHost actions) ↔ rangeInv s := Iff.rfl

/-- While an operation runs the cursor is within the buffer (R34). -/
theorem rangeInv.offset_le_length (hi : rangeInv s) (hr : s.phase = .run) : s.offset ≤ s.length := by
  obtain ⟨-, -, hoff, -⟩ := hi hr
  exact hoff

/-- A candidate begins before the cursor (R34). -/
theorem rangeInv.fstart_lt_offset (hi : rangeInv s) (hr : s.phase = .run) (hp : s.pstate ≠ .seekPreambleHigh) :
    s.fstart < s.offset := by
  obtain ⟨-, -, -, hfs, -⟩ := hi hr
  exact hfs hp

/-- No scanning step writes LENGTH (R40). -/
theorem ScanStep.length_eq (h : ScanStep s b t) : t.length = s.length := by
  cases h <;> rfl

/-- A scanning step takes the cursor no further than the end of the buffer: by one from an offset below LENGTH, over
payload bytes that all lie below LENGTH, or to LENGTH itself by `abort_scan` (R115). -/
theorem ScanStep.offset_le_length (h : ScanStep s b t) : t.offset ≤ s.length := by
  cases h with
  | rhUnderflow => exact le_rfl
  | rcMismatch => exact le_rfl
  | rpCopy he data hd hl =>
    have hlen : data.length = s.dataLength.toNat := by simp [hd]
    change s.offset + data.length ≤ s.length
    rw [hlen]
    cases hn : s.dataLength.toNat with
    | zero =>
      obtain ⟨-, -, hlt⟩ := he
      exact hlt.le
    | succ n => exact hl (s.offset + n) (by simp [hn])
  | sphMatch he | sphSkip he | splMatch he | splMiss he | rhAccept he | rcMatch he =>
    obtain ⟨-, -, hlt⟩ := he
    exact hlt

/-- SPH.MATCH sets FSTART to the cursor (R130). Every other scanning step keeps FSTART, and where it ends outside SPH
it began outside SPH: the candidate was locked already. -/
theorem ScanStep.fstart_cases (h : ScanStep s b t) :
    (t.fstart = s.fstart ∧ (t.pstate ≠ .seekPreambleHigh → s.pstate ≠ .seekPreambleHigh)) ∨
      (t.fstart = s.offset ∧ s.offset < s.length) := by
  cases h with
  | sphMatch he =>
    obtain ⟨-, -, hlt⟩ := he
    exact .inr ⟨rfl, hlt⟩
  | sphSkip | rhUnderflow | rcMismatch => exact .inl ⟨rfl, id⟩
  | splMatch he | splMiss he | rhAccept he | rpCopy he | rcMatch he =>
    obtain ⟨-, hp, -⟩ := he
    exact .inl ⟨rfl, fun _ => by simp [hp]⟩

/-- A step of a running operation keeps LENGTH, leaves the cursor at most there, and a candidate's start below it. -/
theorem fdStep_cursor_le_length (hi : rangeInv s) (hr : s.phase = .run) (h : fdStep s = .next t) :
    t.length = s.length ∧ t.offset ≤ s.length ∧ (t.pstate ≠ .seekPreambleHigh → t.fstart < s.length) := by
  have hoff := hi.offset_le_length hr
  have hfs : s.pstate ≠ .seekPreambleHigh → s.fstart < s.length :=
    fun hp => (hi.fstart_lt_offset hr hp).trans_le hoff
  obtain ⟨-, rfl⟩ | ⟨-, hstep⟩ := fdStep_next_cases hr h
  · exact ⟨rfl, hoff, hfs⟩
  · refine ⟨hstep.length_eq, hstep.offset_le_length, fun hp => ?_⟩
    obtain ⟨heq, hkeep⟩ | ⟨heq, hlt⟩ := hstep.fstart_cases
    · exact heq ▸ hfs (hkeep hp)
    · exact heq ▸ hlt

/-- Settles O51: after every step OFFSET and a locked FSTART are at most LENGTH, which the step keeps. -/
theorem cursorFitsWidthOfLength : Obligations.CursorFitsWidthOfLength := by
  intro bits s t _ hi hq hr hbits hstep
  rw [step_of_hostQuiet hq] at hstep
  obtain ⟨hlen, hoff, hfs⟩ :=
    fdStep_cursor_le_length (s := s.afterPause) ((rangeInv_withHost _).mpr hi) hr hstep
  exact ⟨hlen, hoff.trans_lt hbits, fun hp => (hfs hp).trans hbits⟩

end Sys2Proof.Machine
end

section
/-! What a step that leaves an operation running can have been, said once: the invariants of an operation speak of
PHASE = Run only, so each is kept once it is kept by these four. -/

namespace Sys2Proof.Machine

variable {s t : State} {b : Byte}

/-- A step after which an operation runs: a scanning step of FD, the DECODE that is ignored in Run (R121, log 7), the
DECODE that starts the scan (R112), or a byte the host stores. `actions` is what the host has left to do. -/
inductive RunningStep (s : State) : State → Prop where
  | scan {t : State} (actions : List HostAction)
      (h : ScanStep (s.withHost actions) (s.input.read s.offset) t) : RunningStep s t
  | ignored (actions : List HostAction) (hr : s.phase = .run) : RunningStep s (s.withHost actions)
  | started (actions : List HostAction) {length : Nat} (hmin : Config.minFrame ≤ length) :
      RunningStep s ((s.withHost actions).latchOperands true length).startScan
  | stored {actions : List HostAction} {a : Nat} {v : Byte} (hr : s.phase = .run)
      (hh : s.host = .writeInput a v :: actions) : RunningStep s ((s.withHost actions).hostWrite a v)

/-- FD's own step leaves an operation running only by a scanning step. -/
theorem scanStep_of_fdStep (h : fdStep s = .next t) (ht : t.phase = .run) :
    ScanStep s (s.input.read s.offset) t := by
  by_cases hr : s.phase = .run
  · obtain ⟨-, rfl⟩ | ⟨-, hstep⟩ := fdStep_next_cases hr h
    · cases ht
    · exact hstep
  · rw [fdStep_rest hr] at h
    cases h
    exact absurd ht hr

/-- The inversion of `step` for a step that leaves an operation running. -/
theorem runningStep_of_step (h : step s = .next t) (ht : t.phase = .run) : RunningStep s t := by
  obtain ⟨-, h⟩ | ⟨rest, -, h⟩ | ⟨rest, -, rfl⟩ | ⟨present, length, rest, -, h⟩ | ⟨a, v, rest, hh, rfl⟩ :=
    step_cases h
  · exact .scan s.host (scanStep_of_fdStep h ht)
  · exact .scan rest (scanStep_of_fdStep h ht)
  · cases ht
  · obtain ⟨hr, rfl⟩ | ⟨-, -, rfl⟩ | ⟨-, hpass, rfl⟩ := execDecode_next h
    · exact .ignored rest hr
    · cases ht
    · obtain ⟨hp, hmin⟩ := not_or.mp hpass
      obtain rfl := Bool.eq_true_of_not_eq_false hp
      exact .started rest (Nat.le_of_not_lt hmin)
  · exact .stored ht hh

/-- Every scanning step is a step of a running operation (R113), with the cursor below LENGTH. -/
theorem ScanStep.enabled (h : ScanStep s b t) : s.phase = .run ∧ s.offset < s.length := by
  cases h with
  | sphMatch he | sphSkip he | splMatch he | splMiss he | rhAccept he | rhUnderflow he | rpCopy he | rcMatch he
  | rcMismatch he =>
    obtain ⟨hr, -, hlt⟩ := he
    exact ⟨hr, hlt⟩

/-- A scanning step writes neither PHASE, PRESENT, LENGTH nor what stands for the host (R40, R50). -/
theorem ScanStep.keeps_operands (h : ScanStep s b t) :
    t.phase = s.phase ∧ t.present = s.present ∧ t.input = s.input ∧ t.host = s.host := by
  cases h <;> exact ⟨rfl, rfl, rfl, rfl⟩

end Sys2Proof.Machine
end

section
/-! The range invariants (R34). -/

namespace Sys2Proof.Machine

variable {s t : State} {b : Byte}

/-- Where the cursor stands in each scan state: the rows of R34 for PSTATE. -/
def cursorPlace (s : State) : Prop :=
  match s.pstate with
  | .seekPreambleHigh => True
  | .seekPreambleLow => s.offset = s.fstart + 1
  | .readHeader => s.fstart < s.offset ∧ (s.offset < s.length → s.offset = s.fstart + 2)
  | .readPayload => s.offset = s.fstart + 3 ∧ s.offset + s.dataLength.toNat + 1 ≤ s.length
  | .readChecksum =>
    s.fstart < s.offset ∧ (s.offset < s.length → s.offset = s.fstart + 3 + s.dataLength.toNat)
  | .finished => s.offset = s.fstart + 4 + s.dataLength.toNat

/-- The range invariants, read state by state. -/
theorem rangeInv_iff (hr : s.phase = .run) :
    rangeInv s ↔ s.present = true ∧ Config.minFrame ≤ s.length ∧ s.offset ≤ s.length ∧ cursorPlace s := by
  cases hp : s.pstate <;> simp [rangeInv, cursorPlace, hr, hp] <;> omega

/-- The cursor's place in the scan state that a scanning step starts from. -/
theorem rangeInv.cursorPlace (hi : rangeInv s) (hr : s.phase = .run) : cursorPlace s := by
  obtain ⟨-, -, -, hplace⟩ := (rangeInv_iff hr).mp hi
  exact hplace

/-- A scanning step takes the cursor from its place in one scan state to its place in the next. -/
theorem ScanStep.keeps_cursorPlace (h : ScanStep s b t) (hplace : cursorPlace s) : cursorPlace t := by
  cases h with
  | sphMatch => rfl
  | sphSkip he =>
    obtain ⟨-, hp, -⟩ := he
    simp [cursorPlace, hp]
  | splMiss => trivial
  | splMatch he | rhUnderflow he | rcMatch he | rcMismatch he =>
    obtain ⟨-, hp, hlt⟩ := he
    simp [cursorPlace, hp] at hplace ⊢
    omega
  | rhAccept he hf =>
    obtain ⟨-, hp, hlt⟩ := he
    simp [cursorPlace, hp, headerFits] at hplace hf ⊢
    omega
  | rpCopy he data hd =>
    obtain ⟨-, hp, -⟩ := he
    simp [cursorPlace, hp, hd] at hplace ⊢
    omega

/-- A scanning step keeps the range invariants. -/
theorem ScanStep.keeps_rangeInv (h : ScanStep s b t) (hi : rangeInv s) : rangeInv t := by
  obtain ⟨hr, -⟩ := h.enabled
  obtain ⟨hphase, hpres, -, -⟩ := h.keeps_operands
  obtain ⟨hp, hmin, -, hplace⟩ := (rangeInv_iff hr).mp hi
  have hlen := h.length_eq
  exact (rangeInv_iff (hphase.trans hr)).mpr
    ⟨hpres.trans hp, hlen ▸ hmin, hlen ▸ h.offset_le_length, h.keeps_cursorPlace hplace⟩

/-- A scan starts within its ranges: SPH at offset 0, after the entry check (R112). -/
theorem rangeInv_startScan {length : Nat} (hmin : Config.minFrame ≤ length) :
    rangeInv (s.latchOperands true length).startScan :=
  (rangeInv_iff rfl).mpr ⟨rfl, hmin, Nat.zero_le _, trivial⟩

/-- The steps that leave an operation running keep the range invariants: scanning steps, the start of a scan, and host
actions that write no register. -/
theorem RunningStep.keeps_rangeInv (h : RunningStep s t) (hi : rangeInv s) : rangeInv t := by
  cases h with
  | scan actions h => exact h.keeps_rangeInv hi
  | ignored | stored => exact hi
  | started actions hmin => exact rangeInv_startScan hmin

/-- Every step keeps the range invariants, which say nothing of a machine that is not running. -/
theorem step_keeps_rangeInv (hi : rangeInv s) (h : step s = .next t) : rangeInv t :=
  fun ht => (runningStep_of_step h ht).keeps_rangeInv hi ht

/-- Settles O26: a running state is within its ranges by the four ways a step can leave one. -/
theorem rangeInvariantKept : Obligations.RangeInvariantKept := fun _ _ => step_keeps_rangeInv

end Sys2Proof.Machine
end

section
/-! The running checksum (R162): while the scan has not aborted, SUM is the checksum of the candidate so far. -/

namespace Sys2Proof.Machine

variable {s t : State}

/-- `sum8(i, j)` depends on the bytes from `i` up to `j` alone (R161). -/
theorem sum8_congr {m m' : Memory} {i j : Nat} (h : ∀ x, i ≤ x → x < j → m.read x = m'.read x) :
    sum8 m i j = sum8 m' i j := by
  have hsum : ∀ n, n ≤ j - i → sumBytes m i n = sumBytes m' i n := by
    intro n hn
    induction n with
    | zero => rfl
    | succ n ih => rw [sumBytes_succ, sumBytes_succ, ih (by omega), h (i + n) (by omega) (by omega)]
  exact hsum (j - i) le_rfl

/-- The running sum of a stretch of IN takes in the bytes after it (R150, R161). -/
theorem addBytes_sum8 {m : Memory} {i j : Nat} (n : Nat) (h : i ≤ j) :
    addBytes (sum8 m i j) ((List.range' j n).map m.read) = sum8 m i (j + n) := by
  induction n generalizing j with
  | zero => rfl
  | succ n ih =>
    rw [List.range'_succ, List.map_cons, addBytes_cons, ← sum8_succ m h, ih (by omega), Nat.add_right_comm, Nat.add_assoc]

/-- Before a scanning step of a locked candidate the scan has not aborted: an abort leaves the cursor at LENGTH. -/
theorem scanLive_of_lt (hi : rangeInv s) (hr : s.phase = .run) (hlt : s.offset < s.length) : scanLive s := by
  obtain ⟨-, -, -, -, -, hrh, -, hrc, -⟩ := hi hr
  exact ⟨fun hp => hrh hp hlt, fun hp => hrc hp hlt⟩

/-- Before a scanning step of a candidate SUM is its checksum so far. -/
theorem sum_of_sumInv (hi : rangeInv s) (hsum : sumInv s) (hr : s.phase = .run) (hlt : s.offset < s.length)
    (hp : s.pstate ≠ .seekPreambleHigh) (hp' : s.pstate ≠ .finished) : s.sum = sum8 s.input s.fstart s.offset :=
  hsum hr hp hp' (scanLive_of_lt hi hr hlt)

/-- A scanning step keeps the checksum invariant: it adds to SUM the bytes it passes, or it aborts, or it ends the
candidate. -/
theorem ScanStep.keeps_sumInv (h : ScanStep s (s.input.read s.offset) t) (hi : rangeInv s) (hsum : sumInv s) :
    sumInv t := by
  intro _ hsph hfin hlive
  cases h with
  | sphMatch he hb => simp [sum8_succ, add8, hb]
  | sphSkip he =>
    obtain ⟨-, hp, -⟩ := he
    exact absurd hp hsph
  | splMatch he hb =>
    obtain ⟨hr, hp, hlt⟩ := he
    have hfs := hi.fstart_lt_offset hr (by simp [hp])
    have hs := sum_of_sumInv hi hsum hr hlt (by simp [hp]) (by simp [hp])
    simp [sum8_succ _ hfs.le, hs, hb]
  | splMiss => exact absurd rfl hsph
  | rhAccept he =>
    obtain ⟨hr, hp, hlt⟩ := he
    have hfs := hi.fstart_lt_offset hr (by simp [hp])
    have hs := sum_of_sumInv hi hsum hr hlt (by simp [hp]) (by simp [hp])
    simp [sum8_succ _ hfs.le, hs]
  | rhUnderflow he =>
    obtain ⟨hr, hp, hlt⟩ := he
    have hcur : s.offset = s.fstart + 2 := (scanLive_of_lt hi hr hlt).1 hp
    have habort : s.length = s.fstart + 2 := hlive.1 hp
    omega
  | rpCopy he data hd =>
    obtain ⟨hr, hp, hlt⟩ := he
    have hfs := hi.fstart_lt_offset hr (by simp [hp])
    have hs := sum_of_sumInv hi hsum hr hlt (by simp [hp]) (by simp [hp])
    simp [hd, hs, addBytes_sum8 _ hfs.le]
  | rcMatch => exact absurd rfl hfin
  | rcMismatch he =>
    obtain ⟨hr, hp, hlt⟩ := he
    have hcur : s.offset = s.fstart + 3 + s.dataLength.toNat := (scanLive_of_lt hi hr hlt).2 hp
    have habort : s.length = s.fstart + 3 + s.dataLength.toNat := hlive.2 hp
    omega

/-- The host changes no byte below LENGTH when it stores in Run and keeps R215. -/
theorem hostObeys_stored {actions : List HostAction} {a : Nat} {v : Byte} (ho : hostObeys s)
    (hh : s.host = .writeInput a v :: actions) (hr : s.phase = .run) :
    ∀ x, x < s.length → (s.input.write a v).read x = s.input.read x := by
  unfold hostObeys at ho
  rw [hh] at ho
  exact ho hr

/-- A step that leaves an operation running keeps the checksum invariant, for a host that keeps R215. -/
theorem RunningStep.keeps_sumInv (h : RunningStep s t) (hi : rangeInv s) (hsum : sumInv s) (ho : hostObeys s) :
    sumInv t := by
  cases h with
  | scan actions h => exact h.keeps_sumInv hi hsum
  | ignored => exact hsum
  | started => exact fun _ hsph => absurd rfl hsph
  | stored hr hh =>
    intro _ hsph hfin hlive
    have hs : s.sum = sum8 s.input s.fstart s.offset := hsum hr hsph hfin hlive
    refine hs.trans (sum8_congr fun x _ hx => ?_)
    exact (hostObeys_stored ho hh hr x (hx.trans_le (hi.offset_le_length hr))).symm

/-- Every step of a host that keeps R215 keeps the checksum invariant. -/
theorem step_keeps_sumInv (hi : rangeInv s) (hsum : sumInv s) (ho : hostObeys s) (h : step s = .next t) : sumInv t :=
  fun ht => (runningStep_of_step h ht).keeps_sumInv hi hsum ho ht

end Sys2Proof.Machine
end

section
/-! The candidate frame in IN and its copy in the Frame registers (R133, R173), and that it lies below LENGTH. -/

namespace Sys2Proof.Machine

variable {s t : State} {b : Byte}

/-- A scanning step keeps the candidate below LENGTH: RH begins with the preamble passed (R131), RP only where the whole
frame fits (R142). -/
theorem ScanStep.keeps_candidateInBuffer (h : ScanStep s b t) (hi : rangeInv s) (hbuf : candidateInBuffer s) :
    candidateInBuffer t := by
  intro _
  obtain ⟨hr, hlt⟩ := h.enabled
  obtain ⟨hrh, hrest⟩ := hbuf hr
  have hplace := hi.cursorPlace hr
  cases h with
  | sphMatch | splMiss => simp
  | sphSkip he =>
    obtain ⟨-, hp, -⟩ := he
    simp [hp]
  | splMatch he =>
    obtain ⟨-, hp, -⟩ := he
    simp [cursorPlace, hp] at hplace ⊢
    omega
  | rhAccept he hf =>
    obtain ⟨-, hp, -⟩ := he
    simp [cursorPlace, hp, hlt, headerFits] at hplace hf ⊢
    omega
  | rhUnderflow he =>
    obtain ⟨-, hp, -⟩ := he
    simpa [hp] using hrh hp
  | rpCopy he | rcMatch he | rcMismatch he =>
    obtain ⟨-, hp, -⟩ := he
    simpa [hp] using hrest (by simp [hp])

/-- The payload cells RP.COPY leaves hold the bytes it passed (R150). -/
theorem copyPayload_getElem {n : Nat} (k : Fin Config.capacity) (hk : k.val < n) :
    (s.copyPayload ((List.range' s.offset n).map s.input.read)).payload[k] = s.input.read (s.offset + k.val) := by
  simp [storePayload_getElem, hk]

/-- A scanning step keeps the candidate frame: what it says anew of IN is the byte the step has read. -/
theorem ScanStep.keeps_candidateInv (h : ScanStep s (s.input.read s.offset) t) (hi : rangeInv s) (hsum : sumInv s)
    (hcand : candidateInv s) : candidateInv t := by
  intro _
  obtain ⟨hr, hlt⟩ := h.enabled
  obtain ⟨hhi, hlo, hfields, hcells, -⟩ := hcand hr
  have hplace := hi.cursorPlace hr
  cases h with
  | sphMatch he hb => simpa using hb
  | sphSkip he =>
    obtain ⟨-, hp, -⟩ := he
    simp [hp]
  | splMiss => simp
  | splMatch he hb =>
    obtain ⟨-, hp, -⟩ := he
    have hcur : s.offset = s.fstart + 1 := by simpa [cursorPlace, hp] using hplace
    simpa [hhi, hp, hcur] using hb
  | rhAccept he =>
    obtain ⟨-, hp, -⟩ := he
    have hcur : s.offset = s.fstart + 2 := (scanLive_of_lt hi hr hlt).1 hp
    simp [hhi, hlo, hp, hcur]
  | rhUnderflow he =>
    obtain ⟨-, hp, -⟩ := he
    simp [hhi, hlo, hp]
  | rpCopy he data hd =>
    obtain ⟨-, hp, -⟩ := he
    obtain ⟨hcur, -⟩ : s.offset = s.fstart + 3 ∧ s.offset + s.dataLength.toNat + 1 ≤ s.length := by
      simpa [cursorPlace, hp] using hplace
    subst hd
    refine ⟨fun _ => hhi (by simp [hp]), fun _ => hlo (by simp [hp]), fun _ => ?_, fun _ k hk => ?_, nofun⟩
    · simpa using hfields (by simp [hp])
    · exact (copyPayload_getElem k (by simpa using hk)).trans (by rw [hcur]; rfl)
  | rcMatch he hb =>
    obtain ⟨-, hp, -⟩ := he
    have hcur : s.offset = s.fstart + 3 + s.dataLength.toNat := (scanLive_of_lt hi hr hlt).2 hp
    have hs := sum_of_sumInv hi hsum hr hlt (by simp [hp]) (by simp [hp])
    exact ⟨fun _ => hhi (by simp [hp]), fun _ => hlo (by simp [hp]), fun _ => hfields (by simp [hp]),
      fun _ => hcells (by simp [hp]), fun _ => hcur ▸ hb.trans hs⟩
  | rcMismatch he =>
    obtain ⟨-, hp, -⟩ := he
    exact ⟨hhi, hlo, hfields, hcells, fun hfin => absurd (hp.symm.trans hfin) (by decide)⟩

/-- A store that changes no byte below LENGTH keeps the candidate frame, which lies below LENGTH. -/
theorem hostWrite_keeps_candidateInv {a : Nat} {v : Byte} (hi : rangeInv s) (hbuf : candidateInBuffer s)
    (hcand : candidateInv s) (hr : s.phase = .run)
    (hw : ∀ x, x < s.length → (s.input.write a v).read x = s.input.read x) : candidateInv (s.hostWrite a v) := by
  intro _
  obtain ⟨hhi, hlo, hfields, hcells, hsum⟩ := hcand hr
  obtain ⟨hrh, hrest⟩ := hbuf hr
  have hoff := hi.offset_le_length hr
  refine ⟨fun hp => ?_, fun hp => ?_, fun hp => ?_, fun hp k hk => ?_, fun hp => ?_⟩
  · have hfs := hi.fstart_lt_offset hr hp
    exact (hw s.fstart (by omega)).trans (hhi hp)
  · have hpre : s.fstart + 2 ≤ s.length := by
      obtain hp | hp := hp
      · exact hrh hp
      · have hfit := hrest hp
        omega
    exact (hw (s.fstart + 1) (by omega)).trans (hlo hp)
  · have hfit := hrest hp
    have hread := hw (s.fstart + 2) (by omega)
    simpa [hread] using hfields hp
  · have hfit := hrest (.inr hp)
    have hk' : k.val < s.dataLength.toNat := hk
    exact (hcells hp k hk).trans (hw (s.fstart + 3 + k.val) (by omega)).symm
  · have hfit := hrest (.inr (.inr hp))
    exact ((hw (s.fstart + 3 + s.dataLength.toNat) (by omega)).trans (hsum hp)).trans
      (sum8_congr fun x _ hx => (hw x (by omega)).symm)

/-- A step that leaves an operation running keeps the candidate below LENGTH. -/
theorem RunningStep.keeps_candidateInBuffer (h : RunningStep s t) (hi : rangeInv s) (hbuf : candidateInBuffer s) :
    candidateInBuffer t := by
  cases h with
  | scan actions h => exact h.keeps_candidateInBuffer hi hbuf
  | ignored | stored => exact hbuf
  | started => exact fun _ => ⟨nofun, nofun⟩

/-- A step that leaves an operation running keeps the candidate frame, for a host that keeps R215. -/
theorem RunningStep.keeps_candidateInv (h : RunningStep s t) (hi : rangeInv s) (hsum : sumInv s)
    (hbuf : candidateInBuffer s) (hcand : candidateInv s) (ho : hostObeys s) : candidateInv t := by
  cases h with
  | scan actions h => exact h.keeps_candidateInv hi hsum hcand
  | ignored => exact hcand
  | started => exact fun _ => ⟨fun hsph => absurd rfl hsph, nofun, nofun, nofun, nofun⟩
  | stored hr hh => exact hostWrite_keeps_candidateInv hi hbuf hcand hr (hostObeys_stored (s := s) ho hh hr)

/-- FD's own step leaves IN and the host's actions as they are (R50). -/
theorem fdStep_keeps_input (h : fdStep s = .next t) : t.input = s.input ∧ t.host = s.host := by
  by_cases hr : s.phase = .run
  · obtain ⟨-, rfl⟩ | ⟨-, hstep⟩ := fdStep_next_cases hr h
    · exact ⟨rfl, rfl⟩
    · obtain ⟨-, -, hin, hh⟩ := hstep.keeps_operands
      exact ⟨hin, hh⟩
  · rw [fdStep_rest hr] at h
    cases h
    exact ⟨rfl, rfl⟩

/-- Every step keeps the canonical form of IN: only the host's store writes it. -/
theorem step_keeps_input_wf (hwf : s.input.wf = true) (h : step s = .next t) : t.input.wf = true := by
  obtain ⟨-, h⟩ | ⟨rest, -, h⟩ | ⟨rest, -, rfl⟩ | ⟨present, length, rest, -, h⟩ | ⟨a, v, rest, -, rfl⟩ :=
    step_cases h
  · obtain ⟨hin, -⟩ := fdStep_keeps_input h
    rwa [hin]
  · obtain ⟨hin, -⟩ := fdStep_keeps_input h
    rwa [hin]
  · exact hwf
  · obtain ⟨-, rfl⟩ | ⟨-, -, rfl⟩ | ⟨-, -, rfl⟩ := execDecode_next h <;> exact hwf
  · exact Memory.write_wf a v hwf

/-- Settles O29: each part of `operationInv` is kept, with the help of the others. -/
theorem operationInvariantKept : Obligations.OperationInvariantKept := by
  intro s t ⟨hwf, hi, hsum, hcand, hbuf⟩ ho h
  exact ⟨step_keeps_input_wf hwf h, step_keeps_rangeInv hi h, step_keeps_sumInv hi hsum ho h,
    fun ht => (runningStep_of_step h ht).keeps_candidateInv hi hsum hbuf hcand ho ht,
    fun ht => (runningStep_of_step h ht).keeps_candidateInBuffer hi hbuf ht⟩

/-- Settles O2: IN is empty and no operation runs, so that the invariants of an operation ask for nothing. -/
theorem resetStateMeetsInvariants : Obligations.ResetStateMeetsInvariants :=
  ⟨rfl, rfl, rfl, nofun, nofun, nofun, nofun⟩

end Sys2Proof.Machine
end

section
/-! The writer table (R40): what each named update leaves unchanged, and by composition what each instruction does. -/

namespace Sys2Proof.Machine

variable {s t u : State} {rs rs' : List Register} {n n' : Nat}

/-- From `s` to `t` nothing changed but the registers `rs`, and of PAYLOAD only cells below `n`. -/
structure WritesOnly (rs : List Register) (n : Nat) (s t : State) : Prop where
  registers : ∀ r, r ∉ rs → sameRegister r s t
  cells : ∀ k : Fin Config.capacity, n ≤ k.val → t.payload[k] = s.payload[k]
  input : t.input = s.input
  host : t.host = s.host

theorem sameRegister_trans {r : Register} (h : sameRegister r s t) (h' : sameRegister r t u) : sameRegister r s u := by
  cases r <;> exact h.trans h'

theorem WritesOnly.refl (s : State) : WritesOnly [] 0 s s where
  registers r _ := by cases r <;> rfl
  cells _ _ := rfl
  input := rfl
  host := rfl

/-- One update after another writes what the two write. -/
theorem WritesOnly.trans (h : WritesOnly rs n s t) (h' : WritesOnly rs' n' t u) :
    WritesOnly (rs ++ rs') (max n n') s u where
  registers r hr := by
    rw [List.mem_append, not_or] at hr
    obtain ⟨hl, hr⟩ := hr
    exact sameRegister_trans (h.registers r hl) (h'.registers r hr)
  cells k hk := (h'.cells k (le_of_max_le_right hk)).trans (h.cells k (le_of_max_le_left hk))
  input := h'.input.trans h.input
  host := h'.host.trans h.host

/-- A longer list of registers and more cells claim less. -/
theorem WritesOnly.mono (h : WritesOnly rs n s t) (hrs : rs ⊆ rs') (hn : n ≤ n') : WritesOnly rs' n' s t where
  registers r hr := h.registers r fun hm => hr (hrs hm)
  cells k hk := h.cells k (hn.trans hk)
  input := h.input
  host := h.host

/-- An update that stores no payload cell writes only the registers in which the states differ. For a named update the
field lemmas of Laws/State.lean show every premise. -/
theorem writesOnly_of_registers
    (hr : ∀ r, r ∉ rs → sameRegister r s t := by intro r hr; cases r <;> simp_all [sameRegister])
    (hp : t.payload = s.payload := by rfl) (hin : t.input = s.input := by rfl) (hh : t.host = s.host := by rfl) :
    WritesOnly rs 0 s t :=
  ⟨hr, fun k _ => by rw [hp], hin, hh⟩

/-! ### The named updates -/

theorem advance_writesOnly (s : State) (n : Nat) : WritesOnly [.offset] 0 s (s.advance n) :=
  writesOnly_of_registers

theorem goto_writesOnly (s : State) (p : PState) : WritesOnly [.pstate] 0 s (s.goto p) :=
  writesOnly_of_registers

theorem beginFrame_writesOnly (s : State) : WritesOnly [.fstart, .sum] 0 s s.beginFrame :=
  writesOnly_of_registers

theorem addToSum_writesOnly (s : State) (bytes : List Byte) : WritesOnly [.sum] 0 s (s.addToSum bytes) :=
  writesOnly_of_registers

theorem latchHeader_writesOnly (s : State) (len ident : Nibble) :
    WritesOnly [.identifier, .dataLength, .sum] 0 s (s.latchHeader len ident) :=
  writesOnly_of_registers

theorem abortScan_writesOnly (s : State) : WritesOnly [.offset] 0 s s.abortScan :=
  writesOnly_of_registers

theorem latchOperands_writesOnly (s : State) (present : Bool) (length : Nat) :
    WritesOnly [.present, .length] 0 s (s.latchOperands present length) :=
  writesOnly_of_registers

theorem startScan_writesOnly (s : State) : WritesOnly [.pstate, .offset, .phase] 0 s s.startScan :=
  writesOnly_of_registers

theorem raiseOutcome_writesOnly (s : State) (o : FrameOutcome) : WritesOnly [.outcome, .phase] 0 s (s.raiseOutcome o) :=
  writesOnly_of_registers

/-- The copy writes PAYLOAD alone, below the number of bytes copied; DATALENGTH passes the clamp unchanged (R151). -/
theorem copyPayload_writesOnly (s : State) (data : List Byte) :
    WritesOnly [.payload] data.length s (s.copyPayload data) where
  registers r _ := by cases r <;> simp_all [sameRegister]
  cells k hk := by simp [storePayload_getElem, hk]
  input := rfl
  host := rfl

/-! ### The instructions -/

/-- The frame of an instruction: its row of R40, and the cells it stores to (R35). -/
abbrev InstrWrites (i : Instr) (s t : State) : Prop := WritesOnly (writtenBy i) (cellsStored i) s t

theorem execSphMatch_writes (h : execSphMatch s = .next t) : InstrWrites .sphMatch s t := by
  obtain ⟨-, rfl⟩ := execSphMatch_next h
  exact (((beginFrame_writesOnly _).trans (goto_writesOnly _ _)).trans (advance_writesOnly _ _)).mono
    (by simp [writtenBy]) le_rfl

theorem execSplMatch_writes (h : execSplMatch s = .next t) : InstrWrites .splMatch s t := by
  obtain ⟨-, rfl⟩ := execSplMatch_next h
  exact (((addToSum_writesOnly _ _).trans (goto_writesOnly _ _)).trans (advance_writesOnly _ _)).mono
    (by simp [writtenBy]) le_rfl

theorem execRhAccept_writes {len ident : Nibble} (h : execRhAccept len ident s = .next t) :
    InstrWrites (.rhAccept len ident) s t := by
  obtain ⟨-, rfl⟩ := execRhAccept_next h
  exact (((latchHeader_writesOnly _ _ _).trans (goto_writesOnly _ _)).trans (advance_writesOnly _ _)).mono
    (by simp [writtenBy]) le_rfl

theorem execRpCopy_writes {data : List Byte} (h : execRpCopy data s = .next t) : InstrWrites (.rpCopy data) s t := by
  obtain ⟨-, rfl⟩ := execRpCopy_next h
  exact ((((copyPayload_writesOnly _ _).trans (addToSum_writesOnly _ _)).trans (goto_writesOnly _ _)).trans
    (advance_writesOnly _ _)).mono (by simp [writtenBy]) (by simp [cellsStored])

theorem execRcMatch_writes {c : Byte} (h : execRcMatch c s = .next t) : InstrWrites (.rcMatch c) s t := by
  obtain ⟨-, rfl⟩ := execRcMatch_next h
  exact ((goto_writesOnly _ _).trans (advance_writesOnly _ _)).mono (by simp [writtenBy]) le_rfl

/-- DECODE writes by one of its two rows, and nothing while an operation runs (R121). -/
theorem execDecode_writes {present : Bool} {length : Nat} (h : execDecode present length s = .next t) :
    InstrWrites (.decode present length) s t := by
  obtain ⟨-, rfl⟩ | ⟨-, hfail, rfl⟩ | ⟨-, hpass, rfl⟩ := execDecode_next h
  · exact (WritesOnly.refl t).mono (List.nil_subset _) le_rfl
  · exact ((latchOperands_writesOnly _ _ _).trans (raiseOutcome_writesOnly _ _)).mono
      (by rw [writtenBy, if_pos hfail]; simp) le_rfl
  · exact ((latchOperands_writesOnly _ _ _).trans (startScan_writesOnly _)).mono
      (by rw [writtenBy, if_neg hpass]; simp) le_rfl

/-- FRAME writes what its five steps write (R81, log 11). -/
theorem execFrame_writes {ident : Nibble} {payload : List Byte} (h : execFrame ident payload s = .next t) :
    InstrWrites (.frame ident payload) s t := by
  obtain ⟨s1, s2, s3, s4, h1, h2, h3, h4, h5⟩ := execFrame_next h
  exact (((((execSphMatch_writes h1).trans (execSplMatch_writes h2)).trans (execRhAccept_writes h3)).trans
    (execRpCopy_writes h4)).trans (execRcMatch_writes h5)).mono (by simp [writtenBy]) (by simp [cellsStored])

/-- Every instruction writes by its row of the writer table. -/
theorem exec_writes {i : Instr} (h : exec i s = .next t) : InstrWrites i s t := by
  cases i with
  | sphMatch => exact execSphMatch_writes h
  | sphSkip b =>
    obtain ⟨-, rfl⟩ := execSphSkip_next h
    exact advance_writesOnly _ _
  | splMatch => exact execSplMatch_writes h
  | splMiss b =>
    obtain ⟨-, rfl⟩ := execSplMiss_next h
    exact (goto_writesOnly _ _).trans (advance_writesOnly _ _)
  | rhAccept len ident => exact execRhAccept_writes h
  | rhUnderflow len ident =>
    obtain ⟨-, rfl⟩ := execRhUnderflow_next h
    exact ((latchHeader_writesOnly _ _ _).trans (abortScan_writesOnly _)).mono (by simp [writtenBy]) le_rfl
  | rpCopy data => exact execRpCopy_writes h
  | rcMatch c => exact execRcMatch_writes h
  | rcMismatch c =>
    obtain ⟨-, rfl⟩ := execRcMismatch_next h
    exact abortScan_writesOnly _
  | fin =>
    obtain ⟨-, rfl⟩ := execFin_next h
    exact .refl _
  | decode present length => exact execDecode_writes h
  | finalise =>
    obtain ⟨-, rfl⟩ := execFinalise_next h
    exact (raiseOutcome_writesOnly _ _).mono (by simp [writtenBy]) le_rfl
  | frame ident payload => exact execFrame_writes h

/-- Settles O25: the frame of each instruction, composed from those of the updates it is made of. -/
theorem writerTableHolds : Obligations.WriterTableHolds := by
  intro i s t h
  have hw := exec_writes h
  exact ⟨hw.registers, hw.cells, fun a => by rw [hw.input], hw.host⟩

end Sys2Proof.Machine
end

section
/-! The status levels (R32). -/

namespace Sys2Proof.Machine

@[simp] theorem State.busy_iff {s : State} : s.busy = true ↔ s.phase = .run := by simp [State.busy]

@[simp] theorem State.done_iff {s : State} : s.done = true ↔ s.phase = .done := by simp [State.done]

/-- Settles O4: the levels are defined from PHASE, and the host's view shows them. -/
theorem busyAndDoneFollowPhase : Obligations.BusyAndDoneFollowPhase :=
  fun _ => ⟨State.busy_iff, State.done_iff, rfl, rfl⟩

end Sys2Proof.Machine
end

section
/-! FD's own step, forwards: the scanning step of the byte at the cursor and FINALISE are what FD takes (R113). With
`fdStep_next_cases` they say what FD's step is in both directions. -/

namespace Sys2Proof.Machine

variable {s t : State} {b : Byte}

/-- FD runs the row decoded from the bytes at the cursor, if they exist. -/
theorem fdStep_of_row {i : Instr} {rest : List Byte} (hr : s.phase = .run) (hs : s.scanning)
    (hin : ∀ a ∈ s.readOffsets, s.present = true ∧ a < s.length)
    (hd : decodeScan s.scanContext (s.readOffsets.map s.input.read) = some (i, rest)) : fdStep s = exec i s :=
  fdStep_run hr <| fetch_eq_next_iff.mpr
    ⟨fun a ha => ⟨hr, hin a ha⟩, rest, by rw [State.selector_of_scanning hs]; exact hd⟩

/-- FD ends the operation where no scanning step is enabled (R170). -/
theorem fdStep_of_not_scanning (hr : s.phase = .run) (hs : ¬ s.scanning) :
    fdStep s = .next (s.raiseOutcome (deriveOutcome s.pstate s.dataLength)) := by
  have hf : fetch s = .next .finalise :=
    fetch_eq_next_iff.mpr
      ⟨by simp [State.readOffsets_of_not_scanning hs], _, by rw [State.selector_of_not_scanning hs]; rfl⟩
  have hen : s.finaliseEnabled := by
    refine ⟨hr, ?_⟩
    simpa [State.scanning, or_iff_not_imp_left] using hs
  rw [fdStep_run hr hf]
  exact if_pos hen

/-- FD's step answers while an operation runs only if PRESENT = 1 or it reads nothing. -/
theorem present_of_fdStep {a : Nat} (h : fdStep s = .next t) (ha : a ∈ s.readOffsets) : s.present = true := by
  by_cases he : s.phase = .run ∧ s.scanning
  · obtain ⟨hr, hs⟩ := he
    obtain ⟨hns, -⟩ | ⟨-, hin, -⟩ := fdStep_run_cases hr h
    · exact absurd hs hns
    · rw [State.readOffsets_of_scanning hr hs] at ha
      exact (hin a ha).1
  · rw [State.readOffsets, if_neg he] at ha
    cases ha

/-- A scanning step runs where the loop condition of R113 holds. -/
theorem ScanStep.scanning (h : ScanStep s b t) : s.scanning := by
  cases h with
  | sphMatch he | sphSkip he | splMatch he | splMiss he | rhAccept he | rhUnderflow he | rpCopy he | rcMatch he
  | rcMismatch he =>
    obtain ⟨-, hp, hlt⟩ := he
    exact ⟨by simp [hp], hlt⟩

/-- Outside RP a scanning step reads the one byte at the cursor (R86). -/
theorem readOffsets_eq_singleton {p : PState} (he : s.scanEnabled p) (hp : p ≠ .readPayload) (hp' : p ≠ .finished) :
    s.readOffsets = [s.offset] := by
  obtain ⟨hr, rfl, hlt⟩ := he
  rw [State.readOffsets_of_scanning hr ⟨hp', hlt⟩]
  cases hps : s.pstate <;> simp_all [bytesConsumed]

/-- In RP the scanning step reads the DATALENGTH payload bytes (R150). -/
theorem readOffsets_of_readPayload (he : s.scanEnabled .readPayload) :
    s.readOffsets = List.range' s.offset s.dataLength.toNat := by
  obtain ⟨hr, hp, hlt⟩ := he
  rw [State.readOffsets_of_scanning hr ⟨by simp [hp], hlt⟩, hp, bytesConsumed, clampLength_eq]

/-- A scanning step reads below LENGTH (R53). -/
theorem ScanStep.reads_lt_length (h : ScanStep s b t) : ∀ a ∈ s.readOffsets, a < s.length := by
  obtain ⟨-, hlt⟩ := h.enabled
  cases h with
  | rpCopy he data hd hl => rwa [readOffsets_of_readPayload he]
  | sphMatch he | sphSkip he | splMatch he | splMiss he | rhAccept he | rhUnderflow he | rcMatch he
  | rcMismatch he => simpa [readOffsets_eq_singleton he]

/-- Outside RP FD runs the row decoded from the byte at the cursor. -/
theorem fdStep_of_byte {p : PState} {i : Instr} (he : s.scanEnabled p) (hp : p ≠ .readPayload) (hp' : p ≠ .finished)
    (hpres : s.present = true) (hd : decodeScan s.scanContext [s.input.read s.offset] = some (i, [])) :
    fdStep s = exec i s := by
  have hread := readOffsets_eq_singleton he hp hp'
  obtain ⟨hr, rfl, hlt⟩ := he
  exact fdStep_of_row hr ⟨hp', hlt⟩ (by simp [hread, hpres, hlt]) (by rw [hread]; exact hd)

/-- FD's step in SPH (R130). -/
theorem fdStep_seekPreambleHigh (he : s.scanEnabled .seekPreambleHigh) (hpres : s.present = true) :
    fdStep s = exec (if s.input.read s.offset = Config.preambleHi then .sphMatch
      else .sphSkip (s.input.read s.offset)) s :=
  fdStep_of_byte he nofun nofun hpres (by obtain ⟨-, hp, -⟩ := he; simp only [decodeScan, State.scanContext, hp])

/-- FD's step in SPL (R131). -/
theorem fdStep_seekPreambleLow (he : s.scanEnabled .seekPreambleLow) (hpres : s.present = true) :
    fdStep s = exec (if s.input.read s.offset = Config.preambleLo then .splMatch
      else .splMiss (s.input.read s.offset)) s :=
  fdStep_of_byte he nofun nofun hpres (by obtain ⟨-, hp, -⟩ := he; simp only [decodeScan, State.scanContext, hp])

/-- FD's step in RH (R140). -/
theorem fdStep_readHeader (he : s.scanEnabled .readHeader) (hpres : s.present = true) :
    fdStep s = exec (if headerFits s.length s.offset (hi4 (s.input.read s.offset))
      then .rhAccept (hi4 (s.input.read s.offset)) (lo4 (s.input.read s.offset))
      else .rhUnderflow (hi4 (s.input.read s.offset)) (lo4 (s.input.read s.offset))) s :=
  fdStep_of_byte he nofun nofun hpres (by obtain ⟨-, hp, -⟩ := he; simp only [decodeScan, State.scanContext, hp])

/-- FD's step in RP (R150): PRESENT = 1 is not needed where DATALENGTH = 0. -/
theorem fdStep_readPayload (he : s.scanEnabled .readPayload)
    (hin : ∀ a ∈ s.readOffsets, s.present = true ∧ a < s.length) :
    fdStep s = exec (.rpCopy ((List.range' s.offset s.dataLength.toNat).map s.input.read)) s := by
  have hread := readOffsets_of_readPayload he
  obtain ⟨hr, hp, hlt⟩ := he
  refine fdStep_of_row (rest := []) hr ⟨by simp [hp], hlt⟩ hin ?_
  simp [hread, decodeScan, State.scanContext, hp]

/-- FD's step in RC (R160, log 8). -/
theorem fdStep_readChecksum (he : s.scanEnabled .readChecksum) (hpres : s.present = true) :
    fdStep s = exec (if s.input.read s.offset = s.sum then .rcMatch (s.input.read s.offset)
      else .rcMismatch (s.input.read s.offset)) s :=
  fdStep_of_byte he nofun nofun hpres (by obtain ⟨-, hp, -⟩ := he; simp only [decodeScan, State.scanContext, hp])

/-- FD takes the scanning step of the byte at the cursor. -/
theorem ScanStep.fdStep_eq (h : ScanStep s (s.input.read s.offset) t)
    (hpres : ∀ a ∈ s.readOffsets, s.present = true) : fdStep s = .next t := by
  have hin := h.reads_lt_length
  have hbyte {p : PState} (he : s.scanEnabled p) (hp : p ≠ .readPayload) (hp' : p ≠ .finished) : s.present = true :=
    hpres s.offset (by simp [readOffsets_eq_singleton he hp hp'])
  cases h with
  | sphMatch he hb =>
    rw [fdStep_seekPreambleHigh he (hbyte he nofun nofun), if_pos hb]
    exact if_pos he
  | sphSkip he hb =>
    rw [fdStep_seekPreambleHigh he (hbyte he nofun nofun), if_neg hb]
    exact if_pos ⟨he, hb⟩
  | splMatch he hb =>
    rw [fdStep_seekPreambleLow he (hbyte he nofun nofun), if_pos hb]
    exact if_pos he
  | splMiss he hb =>
    rw [fdStep_seekPreambleLow he (hbyte he nofun nofun), if_neg hb]
    exact if_pos ⟨he, hb⟩
  | rhAccept he hf =>
    rw [fdStep_readHeader he (hbyte he nofun nofun), if_pos hf]
    exact if_pos ⟨he, hf⟩
  | rhUnderflow he hf =>
    rw [fdStep_readHeader he (hbyte he nofun nofun), if_neg hf]
    exact if_pos ⟨he, hf⟩
  | rpCopy he data hd =>
    subst hd
    rw [fdStep_readPayload he fun a ha => ⟨hpres a ha, hin a ha⟩]
    exact if_pos ⟨he, by simp⟩
  | rcMatch he hb =>
    rw [fdStep_readChecksum he (hbyte he nofun nofun), if_pos hb]
    exact if_pos ⟨he, hb⟩
  | rcMismatch he hb =>
    rw [fdStep_readChecksum he (hbyte he nofun nofun), if_neg hb]
    exact if_pos ⟨he, hb⟩

end Sys2Proof.Machine
end

section
/-! Two machines that look the same to their hosts (R37): `sameForHost` apart from IN and the host's actions, and that
FD's step and DECODE keep it where the two read the same bytes below LENGTH. -/

namespace Sys2Proof.Machine

variable {s s' t : State} {b : Byte}

/-- What two running machines agree on: every register a later step of the operation reads or has written as part of
the result. -/
structure SameRunning (s s' : State) : Prop where
  present : s.present = s'.present
  length : s.length = s'.length
  pstate : s.pstate = s'.pstate
  offset : s.offset = s'.offset
  sum : s.pstate ≠ .seekPreambleHigh → s.sum = s'.sum
  fields : s.pstate = .readPayload ∨ s.pstate = .readChecksum ∨ s.pstate = .finished →
    s.identifier = s'.identifier ∧ s.dataLength = s'.dataLength
  cells : s.pstate = .readChecksum ∨ s.pstate = .finished → samePayload s.dataLength.toNat s s'

/-- What two machines that are done agree on: OUTCOME, and the fields it makes valid (R173). -/
structure SameResult (s s' : State) : Prop where
  outcome : s.outcome = s'.outcome
  fields : framedOutcome s.outcome = true →
    s.identifier = s'.identifier ∧ s.dataLength = s'.dataLength ∧ samePayload s.dataLength.toNat s s'

/-- What `sameForHost` asks of FD's registers. -/
structure SameScan (s s' : State) : Prop where
  phase : s.phase = s'.phase
  running : s.phase = .run → SameRunning s s'
  result : s.phase = .done → SameResult s s'

/-- `sameForHost` is the agreement of the registers, of IN and of the host's actions. -/
theorem sameForHost_iff : sameForHost s s' ↔ SameScan s s' ∧ s.input = s'.input ∧ s.host = s'.host := by
  constructor
  · rintro ⟨hphase, hin, hh, hrun, hdone⟩
    refine ⟨⟨hphase, fun hr => ?_, fun hd => ?_⟩, hin, hh⟩
    · obtain ⟨h1, h2, h3, h4, h5, h6, h7⟩ := hrun hr
      exact ⟨h1, h2, h3, h4, h5, h6, h7⟩
    · obtain ⟨h1, h2⟩ := hdone hd
      exact ⟨h1, h2⟩
  · rintro ⟨h, hin, hh⟩
    refine ⟨h.phase, hin, hh, fun hr => ?_, fun hd => ?_⟩
    · obtain ⟨h1, h2, h3, h4, h5, h6, h7⟩ := h.running hr
      exact ⟨h1, h2, h3, h4, h5, h6, h7⟩
    · obtain ⟨h1, h2⟩ := h.result hd
      exact ⟨h1, h2⟩

/-! ### The host's view -/

/-- Cells that agree below `n` show the host the same first `n` cells. -/
theorem samePayload.take_eq {n : Nat} (h : samePayload n s s') :
    s.payload.toList.take n = s'.payload.toList.take n := by
  refine List.ext_getElem (by simp) fun k hk _ => ?_
  have hk' : k < n ∧ k < Config.capacity := by simpa using hk
  obtain ⟨hn, hcap⟩ := hk'
  simpa using h ⟨k, hcap⟩ hn

/-- The host's view of a machine that is not done shows BUSY alone (log 18). -/
theorem hostView_of_not_done (h : s.phase ≠ .done) :
    s.hostView =
      { busy := s.busy, done := false, outcome := none, identifier := none, dataLength := none, payload := [] } := by
  have hd : s.done = false := by simpa [State.done] using h
  simp [State.hostView, hd]

/-- The host's view of a machine that is done: the fields only under an outcome that makes them valid (R173). -/
theorem hostView_of_done (h : s.phase = .done) :
    s.hostView =
      { busy := false, done := true, outcome := some s.outcome
        identifier := if framedOutcome s.outcome then some s.identifier else none
        dataLength := if framedOutcome s.outcome then some s.dataLength else none
        payload := if framedOutcome s.outcome then s.payload.toList.take s.dataLength.toNat else [] } := by
  simp [State.hostView, State.done, State.busy, h]

/-- Machines that agree show their hosts the same. -/
theorem SameScan.hostView_eq (h : SameScan s s') : s.hostView = s'.hostView := by
  by_cases hd : s.phase = .done
  · obtain ⟨hout, hfields⟩ := h.result hd
    rw [hostView_of_done hd, hostView_of_done (h.phase ▸ hd), ← hout]
    cases hv : framedOutcome s.outcome with
    | false => simp
    | true =>
      obtain ⟨hid, hlen, hcells⟩ := hfields hv
      simp [hid, ← hlen, hcells.take_eq]
  · rw [hostView_of_not_done hd, hostView_of_not_done (h.phase ▸ hd)]
    simp [State.busy, h.phase]

/-! ### FD's step -/

/-- A scanning step enabled in one machine is enabled in the other. -/
theorem SameRunning.scanEnabled {p : PState} (h : SameRunning s s') (hr' : s'.phase = .run) (he : s.scanEnabled p) :
    s'.scanEnabled p := by
  obtain ⟨-, hp, hlt⟩ := he
  exact ⟨hr', h.pstate ▸ hp, h.offset ▸ h.length ▸ hlt⟩

/-- The cells a copy of `n` bytes fills hold the same in any two machines (R150). -/
theorem samePayload_copyPayload {data : List Byte} {n : Nat} (hn : data.length = n) :
    samePayload n (s.copyPayload data) (s'.copyPayload data) := by
  intro k hk
  simp [storePayload_getElem, hn, hk]

/-- A scanning step of one machine is matched by the other's on the same byte. -/
theorem ScanStep.same (hstep : ScanStep s b t) (h : SameRunning s s') (hr' : s'.phase = .run)
    (hin : ∀ a, a < s.length → s.input.read a = s'.input.read a) :
    ∃ t', ScanStep s' b t' ∧ SameRunning t t' := by
  cases hstep with
  | sphMatch he hb =>
    exact ⟨_, .sphMatch (h.scanEnabled hr' he) hb,
      ⟨h.present, h.length, rfl, congrArg (· + 1) h.offset, fun _ => rfl, by simp, by simp⟩⟩
  | sphSkip he hb =>
    exact ⟨_, .sphSkip (h.scanEnabled hr' he) hb,
      ⟨h.present, h.length, h.pstate, congrArg (· + 1) h.offset, h.sum, h.fields, h.cells⟩⟩
  | splMatch he hb =>
    have ⟨_, hp, _⟩ := he
    exact ⟨_, .splMatch (h.scanEnabled hr' he) hb,
      ⟨h.present, h.length, rfl, congrArg (· + 1) h.offset, fun _ => by simp [h.sum (by simp [hp])], by simp, by simp⟩⟩
  | splMiss he hb =>
    exact ⟨_, .splMiss (h.scanEnabled hr' he) hb,
      ⟨h.present, h.length, rfl, congrArg (· + 1) h.offset, by simp, by simp, by simp⟩⟩
  | rhAccept he hf =>
    have ⟨_, hp, _⟩ := he
    exact ⟨_, .rhAccept (h.scanEnabled hr' he) (h.length ▸ h.offset ▸ hf),
      ⟨h.present, h.length, rfl, congrArg (· + 1) h.offset, fun _ => by simp [h.sum (by simp [hp])],
        fun _ => ⟨rfl, rfl⟩, by simp⟩⟩
  | rhUnderflow he hf =>
    have ⟨_, hp, _⟩ := he
    exact ⟨_, .rhUnderflow (h.scanEnabled hr' he) (h.length ▸ h.offset ▸ hf),
      ⟨h.present, h.length, h.pstate, h.length, fun _ => by simp [h.sum (by simp [hp])], by simp [hp], by simp [hp]⟩⟩
  | rpCopy he data hd hl =>
    have ⟨_, hp, _⟩ := he
    obtain ⟨hid, hlen⟩ := h.fields (by simp [hp])
    have hd' : data = (List.range' s'.offset s'.dataLength.toNat).map s'.input.read := by
      rw [hd, ← h.offset, ← hlen]
      exact List.map_congr_left fun a ha => hin a (hl a ha)
    refine ⟨_, .rpCopy (h.scanEnabled hr' he) data hd' (by rwa [← h.offset, ← hlen, ← h.length]),
      ⟨h.present, h.length, rfl, congrArg (· + data.length) h.offset, fun _ => by simp [h.sum (by simp [hp])],
        fun _ => ⟨hid, congrArg clampLength hlen⟩, fun _ => ?_⟩⟩
    exact samePayload_copyPayload (by simp [hd])
  | rcMatch he hb =>
    have ⟨_, hp, _⟩ := he
    have hsum := h.sum (by simp [hp])
    exact ⟨_, .rcMatch (h.scanEnabled hr' he) (hsum ▸ hb),
      ⟨h.present, h.length, rfl, congrArg (· + 1) h.offset, fun _ => hsum, fun _ => h.fields (by simp [hp]),
        fun _ => h.cells (by simp [hp])⟩⟩
  | rcMismatch he hb =>
    have ⟨_, hp, _⟩ := he
    exact ⟨_, .rcMismatch (h.scanEnabled hr' he) (h.sum (by simp [hp]) ▸ hb),
      ⟨h.present, h.length, h.pstate, h.length, h.sum, h.fields, h.cells⟩⟩

/-- Only the terminal scan state gives an outcome with valid fields (R170, R173). -/
theorem finished_of_framedOutcome {p : PState} {n : Nibble} (h : framedOutcome (deriveOutcome p n) = true) :
    p = .finished := by
  cases p with
  | finished => rfl
  | seekPreambleHigh | seekPreambleLow | readHeader | readPayload | readChecksum => cases h

/-- The outcome derived reads DATALENGTH in the terminal scan state only (R170). -/
theorem deriveOutcome_congr {p : PState} {n n' : Nibble} (h : p = .finished → n = n') :
    deriveOutcome p n = deriveOutcome p n' := by
  cases p with
  | finished => rw [h rfl]
  | seekPreambleHigh | seekPreambleLow | readHeader | readPayload | readChecksum => rfl

/-- FINALISE derives the same result in both machines. -/
theorem SameRunning.result (h : SameRunning s s') :
    SameResult (s.raiseOutcome (deriveOutcome s.pstate s.dataLength))
      (s'.raiseOutcome (deriveOutcome s'.pstate s'.dataLength)) where
  outcome := by
    change deriveOutcome s.pstate s.dataLength = deriveOutcome s'.pstate s'.dataLength
    rw [← h.pstate]
    exact deriveOutcome_congr fun hp => (h.fields (by simp [hp])).2
  fields hv := by
    have hp := finished_of_framedOutcome hv
    obtain ⟨hid, hlen⟩ := h.fields (by simp [hp])
    exact ⟨hid, hlen, h.cells (by simp [hp])⟩

/-- Both machines read at the same offsets. -/
theorem SameRunning.readOffsets_eq (h : SameRunning s s') (hphase : s.phase = s'.phase) :
    s.readOffsets = s'.readOffsets := by
  have hbytes : bytesConsumed s.pstate s.dataLength = bytesConsumed s.pstate s'.dataLength := by
    cases hp : s.pstate with
    | readPayload => rw [(h.fields (by simp [hp])).2]
    | seekPreambleHigh | seekPreambleLow | readHeader | readChecksum | finished => rfl
  simp only [State.readOffsets, State.scanning, hbytes, ← h.pstate, ← h.offset, ← h.length, ← hphase]

/-- FD's own step keeps the agreement of two machines that read the same bytes below LENGTH. -/
theorem SameScan.fdStep (h : SameScan s s') (hin : ∀ a, a < s.length → s.input.read a = s'.input.read a)
    (hstep : fdStep s = .next t) : ∃ t', fdStep s' = .next t' ∧ SameScan t t' := by
  by_cases hr : s.phase = .run
  · have hrun := h.running hr
    have hr' : s'.phase = .run := h.phase ▸ hr
    obtain ⟨hs, rfl⟩ | ⟨-, hscan⟩ := fdStep_next_cases hr hstep
    · have hs' : ¬ s'.scanning := by simpa only [State.scanning, hrun.pstate, hrun.offset, hrun.length] using hs
      exact ⟨_, fdStep_of_not_scanning hr' hs', rfl, nofun, fun _ => hrun.result⟩
    · obtain ⟨t', hscan', hsame⟩ := hscan.same hrun hr' hin
      obtain ⟨-, hlt⟩ := hscan.enabled
      rw [hin _ hlt, hrun.offset] at hscan'
      have hpres : ∀ a ∈ s'.readOffsets, s'.present = true := by
        rw [← hrun.readOffsets_eq h.phase, ← hrun.present]
        exact fun a ha => present_of_fdStep hstep ha
      obtain ⟨ht, -⟩ := hscan.keeps_operands
      obtain ⟨ht', -⟩ := hscan'.keeps_operands
      have hphase : t.phase = .run := ht.trans hr
      exact ⟨t', hscan'.fdStep_eq hpres, hphase.trans (ht'.trans hr').symm, fun _ => hsame,
        fun hd => absurd (hphase.symm.trans hd) nofun⟩
  · rw [fdStep_rest hr] at hstep
    cases hstep
    exact ⟨s', fdStep_rest (h.phase ▸ hr), h⟩

/-- DECODE makes any two machines that are not running agree, whatever they held (R110 to R112). -/
theorem sameScan_of_execDecode {present : Bool} {length : Nat} (hs : s.phase ≠ .run) (hs' : s'.phase ≠ .run)
    (hstep : execDecode present length s = .next t) :
    ∃ t', execDecode present length s' = .next t' ∧ SameScan t t' := by
  unfold execDecode
  rw [if_neg hs']
  obtain ⟨hr, -⟩ | ⟨-, hfail, rfl⟩ | ⟨-, hpass, rfl⟩ := execDecode_next hstep
  · exact absurd hr hs
  · rw [if_pos hfail]
    exact ⟨_, rfl, rfl, nofun, fun _ => ⟨rfl, nofun⟩⟩
  · rw [if_neg hpass]
    exact ⟨_, rfl, rfl, fun _ => ⟨rfl, rfl, rfl, rfl, by simp, by simp, by simp⟩, nofun⟩

/-- DECODE keeps the agreement of two machines, also where it is ignored (R121). -/
theorem SameScan.execDecode {present : Bool} {length : Nat} (h : SameScan s s')
    (hstep : execDecode present length s = .next t) :
    ∃ t', Machine.execDecode present length s' = .next t' ∧ SameScan t t' := by
  by_cases hr : s.phase = .run
  · obtain ⟨-, rfl⟩ | ⟨hn, -⟩ | ⟨hn, -⟩ := execDecode_next hstep
    · exact ⟨s', if_pos (h.phase ▸ hr), h⟩
    · exact absurd hr hn
    · exact absurd hr hn
  · exact sameScan_of_execDecode hr (h.phase ▸ hr) hstep

/-- The agreement of the registers does not speak of the host's actions. -/
theorem SameScan.withHost (h : SameScan s s') (actions : List HostAction) :
    SameScan (s.withHost actions) (s'.withHost actions) where
  phase := h.phase
  running hr := { h.running hr with }
  result hd := { h.result hd with }

/-- The agreement of the registers does not speak of IN. -/
theorem SameScan.hostWrite (h : SameScan s s') (a : Nat) (v : Byte) :
    SameScan (s.hostWrite a v) (s'.hostWrite a v) where
  phase := h.phase
  running hr := { h.running hr with }
  result hd := { h.result hd with }

/-- A reset leaves both machines Idle, where no register is read again. -/
theorem sameScan_applyReset (s s' : State) : SameScan s.applyReset s'.applyReset := ⟨rfl, nofun, nofun⟩

/-- FD's own step keeps two machines looking the same: it leaves IN and the host's actions as they are. -/
theorem sameForHost_fdStep (h : sameForHost s s') (hstep : fdStep s = .next t) :
    ∃ t', fdStep s' = .next t' ∧ sameForHost t t' := by
  obtain ⟨hscan, hin, hh⟩ := sameForHost_iff.mp h
  obtain ⟨t', hstep', hscan'⟩ := hscan.fdStep (fun a _ => by rw [hin]) hstep
  obtain ⟨htin, hth⟩ := fdStep_keeps_input hstep
  obtain ⟨htin', hth'⟩ := fdStep_keeps_input hstep'
  exact ⟨t', hstep', sameForHost_iff.mpr ⟨hscan', by rw [htin, htin', hin], by rw [hth, hth', hh]⟩⟩

/-- A host action keeps two machines looking the same. -/
theorem sameForHost_hostAct {action : HostAction} (h : sameForHost s s') (hstep : hostAct action s = .next t) :
    ∃ t', hostAct action s' = .next t' ∧ sameForHost t t' := by
  obtain ⟨hscan, hin, hh⟩ := sameForHost_iff.mp h
  cases action with
  | pause => exact sameForHost_fdStep h hstep
  | reset =>
    cases hstep
    exact ⟨_, rfl, sameForHost_iff.mpr ⟨sameScan_applyReset s s', hin, hh⟩⟩
  | decode present length =>
    obtain ⟨t', hstep', hscan'⟩ := hscan.execDecode hstep
    have hw := execDecode_writes hstep
    have hw' := execDecode_writes hstep'
    exact ⟨t', hstep', sameForHost_iff.mpr
      ⟨hscan', by rw [hw.input, hw'.input, hin], by rw [hw.host, hw'.host, hh]⟩⟩
  | writeInput a v =>
    cases hstep
    exact ⟨_, rfl, sameForHost_iff.mpr ⟨hscan.hostWrite a v, congrArg (·.write a v) hin, hh⟩⟩

/-- With no host action FD steps. -/
theorem step_of_host_nil (h : s.host = []) : step s = fdStep s := by rw [step, h]

/-- The host's oldest action is taken first. -/
theorem step_of_host_cons {action : HostAction} {rest : List HostAction} (h : s.host = action :: rest) :
    step s = hostAct action (s.withHost rest) := by rw [step, h]

/-- Every step, under every host action, keeps two machines looking the same to their hosts. -/
theorem sameForHost_step (h : sameForHost s s') (hstep : step s = .next t) :
    ∃ t', step s' = .next t' ∧ sameForHost t t' := by
  obtain ⟨hscan, hin, hh⟩ := sameForHost_iff.mp h
  cases hl : s.host with
  | nil =>
    rw [step_of_host_nil hl] at hstep
    rw [step_of_host_nil (hh ▸ hl)]
    exact sameForHost_fdStep h hstep
  | cons action rest =>
    rw [step_of_host_cons hl] at hstep
    rw [step_of_host_cons (hh ▸ hl)]
    exact sameForHost_hostAct (sameForHost_iff.mpr ⟨hscan.withHost rest, hin, rfl⟩) hstep

/-- Settles O42: the host's view reads only what `sameForHost` fixes, and every step keeps `sameForHost`. -/
theorem staleRegistersStayHidden : Obligations.StaleRegistersStayHidden := by
  refine ⟨fun s s' h => ?_, fun _ _ _ => sameForHost_step⟩
  obtain ⟨hscan, -, -⟩ := sameForHost_iff.mp h
  exact hscan.hostView_eq

end Sys2Proof.Machine
end

section
/-! Every operation ends (R118), and nothing carries over from one operation to the next (R37). -/

namespace Sys2Proof.Machine

variable {s s' t : State} {b : Byte}

/-- More than the scanning steps an operation can still take: a step passes a byte, or it is RP.COPY of no byte, after
which one step is left at most (R118). -/
def scanFuel (s : State) : Nat :=
  s.length - s.offset + if s.pstate = .readChecksum ∨ s.pstate = .finished then 0 else 1

theorem scanFuel_le (s : State) : scanFuel s ≤ s.length - s.offset + 1 := by
  unfold scanFuel
  split <;> omega

/-- Every scanning step lowers the number of those left. -/
theorem ScanStep.scanFuel_lt (h : ScanStep s b t) : scanFuel t < scanFuel s := by
  cases h with
  | sphMatch he | sphSkip he | splMatch he | splMiss he | rhAccept he | rhUnderflow he | rpCopy he | rcMatch he
  | rcMismatch he =>
    obtain ⟨-, hp, hlt⟩ := he
    simp [scanFuel, hp]
    omega

/-- While the scan goes on there is a scanning step for the byte at the cursor (R87). -/
theorem exists_scanStep (hi : rangeInv s) (hr : s.phase = .run) (hs : s.scanning) :
    ∃ t, ScanStep s (s.input.read s.offset) t := by
  obtain ⟨hfin, hlt⟩ := hs
  have hen {p : PState} (hp : s.pstate = p) : s.scanEnabled p := ⟨hr, hp, hlt⟩
  cases hp : s.pstate with
  | seekPreambleHigh =>
    by_cases hb : s.input.read s.offset = Config.preambleHi
    · exact ⟨_, .sphMatch (hen hp) hb⟩
    · exact ⟨_, .sphSkip (hen hp) hb⟩
  | seekPreambleLow =>
    by_cases hb : s.input.read s.offset = Config.preambleLo
    · exact ⟨_, .splMatch (hen hp) hb⟩
    · exact ⟨_, .splMiss (hen hp) hb⟩
  | readHeader =>
    by_cases hf : headerFits s.length s.offset (hi4 (s.input.read s.offset))
    · exact ⟨_, .rhAccept (hen hp) hf⟩
    · exact ⟨_, .rhUnderflow (hen hp) hf⟩
  | readPayload =>
    obtain ⟨-, hfit⟩ : s.offset = s.fstart + 3 ∧ s.offset + s.dataLength.toNat + 1 ≤ s.length := by
      simpa [cursorPlace, hp] using hi.cursorPlace hr
    refine ⟨_, .rpCopy (hen hp) _ rfl fun a ha => ?_⟩
    obtain ⟨-, ha⟩ := List.mem_range'_1.mp ha
    omega
  | readChecksum =>
    by_cases hb : s.input.read s.offset = s.sum
    · exact ⟨_, .rcMatch (hen hp) hb⟩
    · exact ⟨_, .rcMismatch (hen hp) hb⟩
  | finished => exact absurd hp hfin

/-- While the scan goes on FD takes a scanning step. -/
theorem exists_fdStep_of_scanning (hi : rangeInv s) (hr : s.phase = .run) (hs : s.scanning) :
    ∃ t, ScanStep s (s.input.read s.offset) t ∧ fdStep s = .next t := by
  obtain ⟨t, ht⟩ := exists_scanStep hi hr hs
  obtain ⟨hpres, -⟩ := hi hr
  exact ⟨t, ht, ht.fdStep_eq fun _ _ => hpres⟩

/-- A running operation that the host leaves alone comes to the end of its scan (R118). -/
theorem exists_scanEnd (hi : rangeInv s) (hr : s.phase = .run) (hh : s.host = []) :
    ∃ k t, k ≤ scanFuel s ∧ runSteps k s = .next t ∧ t.phase = .run ∧ ¬ t.scanning ∧ t.host = [] := by
  induction hn : scanFuel s using Nat.strong_induction_on generalizing s with
  | _ n ih =>
    by_cases hs : s.scanning
    · obtain ⟨u, hscan, hstep⟩ := exists_fdStep_of_scanning hi hr hs
      obtain ⟨hphase, -, -, hhost⟩ := hscan.keeps_operands
      have hfuel := hscan.scanFuel_lt
      obtain ⟨k, t, hk, hrun, hend⟩ :=
        ih _ (hn ▸ hfuel) (hscan.keeps_rangeInv hi) (hphase.trans hr) (hhost.trans hh) rfl
      refine ⟨k + 1, t, by omega, ?_, hend⟩
      rw [runSteps_succ, step_of_host_nil hh, hstep]
      exact hrun
    · exact ⟨0, s, Nat.zero_le _, rfl, hr, hs, hh⟩

/-- DECODE answers in any state, and what it leaves meets the range invariants where no operation ran before. -/
theorem exists_execDecode (hr : s.phase ≠ .run) (present : Bool) (length : Nat) :
    ∃ t, execDecode present length s = .next t ∧ rangeInv t ∧ (t.phase = .run ∨ t.phase = .done) := by
  unfold execDecode
  rw [if_neg hr]
  split
  · exact ⟨_, rfl, nofun, .inr rfl⟩
  · rename_i hpass
    obtain ⟨hp, hmin⟩ := not_or.mp hpass
    obtain rfl := Bool.eq_true_of_not_eq_false hp
    exact ⟨_, rfl, rangeInv_startScan (Nat.le_of_not_lt hmin), .inl rfl⟩

/-- The first step of an operation is its DECODE (R13). -/
theorem runSteps_decode (present : Bool) (length k : Nat) :
    runSteps (k + 1) (s.withHost [.decode present length]) =
      andThen (execDecode present length (s.withHost [])) (runSteps k) := rfl

/-- Every operation ends (R118). -/
theorem exists_operationEnds (hr : s.phase ≠ .run) (present : Bool) (length : Nat) :
    ∃ t, operationEnds s present length t := by
  obtain ⟨u, hdec, hi, hu | hu⟩ := exists_execDecode (s := s.withHost []) hr present length
  · have hhost : u.host = [] := (execDecode_writes hdec).host
    obtain ⟨k, v, -, hrun, hvr, hvs, hvh⟩ := exists_scanEnd hi hu hhost
    have hlast : runSteps 1 v = .next (v.raiseOutcome (deriveOutcome v.pstate v.dataLength)) := by
      rw [runSteps_succ, step_of_host_nil hvh, fdStep_of_not_scanning hvr hvs]
      rfl
    refine ⟨v.raiseOutcome (deriveOutcome v.pstate v.dataLength), rfl, k + 1 + 1, Nat.succ_pos _, ?_⟩
    rw [runSteps_decode, hdec]
    exact runSteps_add hrun hlast
  · exact ⟨u, hu, 1, Nat.one_pos, by rw [runSteps_decode, hdec]; rfl⟩

/-- FD's own step does not write LENGTH (R40). -/
theorem fdStep_length_eq (h : fdStep s = .next t) : t.length = s.length := by
  by_cases hr : s.phase = .run
  · obtain ⟨-, rfl⟩ | ⟨-, hscan⟩ := fdStep_next_cases hr h
    · rfl
    · exact hscan.length_eq
  · rw [fdStep_rest hr] at h
    cases h
    rfl

/-- Two machines that agree and that their hosts leave alone run alike, if they read the same bytes below LENGTH. -/
theorem SameScan.runSteps {k : Nat} (h : SameScan s s') (hh : s.host = []) (hh' : s'.host = [])
    (hin : ∀ a, a < s.length → s.input.read a = s'.input.read a) (hrun : runSteps k s = .next t) :
    ∃ t', Machine.runSteps k s' = .next t' ∧ SameScan t t' := by
  induction k generalizing s s' with
  | zero =>
    cases hrun
    exact ⟨s', rfl, h⟩
  | succ k ih =>
    rw [runSteps_succ, step_of_host_nil hh, andThen_eq_next_iff] at hrun
    obtain ⟨u, hstep, hrun⟩ := hrun
    obtain ⟨u', hstep', hu⟩ := h.fdStep hin hstep
    obtain ⟨huin, huh⟩ := fdStep_keeps_input hstep
    obtain ⟨huin', huh'⟩ := fdStep_keeps_input hstep'
    have hinu : ∀ a, a < u.length → u.input.read a = u'.input.read a := by
      rw [fdStep_length_eq hstep, huin, huin']
      exact hin
    rw [runSteps_succ, step_of_host_nil hh', hstep']
    exact ih hu (huh.trans hh) (huh'.trans hh') hinu hrun

/-- DECODE latches LENGTH where no operation runs (R110). -/
theorem execDecode_length {present : Bool} {length : Nat} (hr : s.phase ≠ .run)
    (h : execDecode present length s = .next t) : t.length = length := by
  obtain ⟨hr', -⟩ | ⟨-, -, rfl⟩ | ⟨-, -, rfl⟩ := execDecode_next h
  · exact absurd hr' hr
  · rfl
  · rfl

/-- An operation of one machine ends alike in any other that is not running and reads the same bytes below LENGTH. -/
theorem operationEnds_same {present : Bool} {length : Nat} (hs : s.phase ≠ .run) (hs' : s'.phase ≠ .run)
    (hin : ∀ a, a < length → s.input.read a = s'.input.read a) (h : operationEnds s present length t) :
    ∃ t', operationEnds s' present length t' ∧ SameScan t t' := by
  obtain ⟨hdone, k, hk, hrun⟩ := h
  obtain ⟨k, rfl⟩ := Nat.exists_eq_succ_of_ne_zero hk.ne'
  rw [runSteps_decode, andThen_eq_next_iff] at hrun
  obtain ⟨u, hdec, hrun⟩ := hrun
  obtain ⟨u', hdec', hu⟩ := sameScan_of_execDecode (s := s.withHost []) (s' := s'.withHost []) hs hs' hdec
  have hw := execDecode_writes hdec
  have hw' := execDecode_writes hdec'
  have hinu : ∀ a, a < u.length → u.input.read a = u'.input.read a := by
    rw [execDecode_length (s := s.withHost []) hs hdec, hw.input, hw'.input]
    exact hin
  obtain ⟨t', hrun', ht⟩ := hu.runSteps hw.host hw'.host hinu hrun
  refine ⟨t', ⟨ht.phase ▸ hdone, k + 1, Nat.succ_pos k, ?_⟩, ht⟩
  rw [runSteps_decode, hdec']
  exact hrun'

/-- Settles O41: the one operation ends, and the other machine, equal to it from the DECODE on, ends it alike. -/
theorem nothingCarriesOver : Obligations.NothingCarriesOver := by
  intro s s' present length hs hs' hin
  obtain ⟨t, hends⟩ := exists_operationEnds hs present length
  obtain ⟨t', hends', hsame⟩ := operationEnds_same hs hs' hin hends
  have ⟨hdone, _⟩ := hends
  exact ⟨t, t', hends, hends', (hsame.result hdone).outcome, hsame.hostView_eq⟩

end Sys2Proof.Machine
end

section
/-! The offsets an operation reads (R53, R55, R56, R60): each scanning step reads on from the cursor, so that one
operation reads 0, 1, 2, … each once. -/

namespace Sys2Proof.Machine

variable {s t : State} {b : Byte}

/-! ### One step -/

/-- Where the host leaves FD alone, a step reads what FD reads. -/
theorem stepReads_of_hostQuiet (hq : hostQuiet s) : stepReads s = s.readOffsets := by
  obtain hh | ⟨rest, hh⟩ := hq <;> rw [stepReads, hh]

/-- A step reads nothing that FD does not read: host actions other than a pause read nothing. -/
theorem mem_readOffsets_of_mem_stepReads {a : Nat} (h : a ∈ stepReads s) : a ∈ s.readOffsets := by
  unfold stepReads at h
  split at h
  · exact h
  · exact h
  · cases h
  · cases h
  · cases h

/-- FD reads only while an operation runs and scans (R113). -/
theorem State.scanning_of_mem_readOffsets {a : Nat} (h : a ∈ s.readOffsets) : s.phase = .run ∧ s.scanning := by
  unfold State.readOffsets at h
  split at h
  · assumption
  · cases h

/-- FD reads nothing while no operation runs (R55, R175). -/
theorem State.readOffsets_of_not_run (h : s.phase ≠ .run) : s.readOffsets = [] :=
  List.eq_nil_iff_forall_not_mem.mpr fun _ ha => h (State.scanning_of_mem_readOffsets ha).1

/-- FD reads from the cursor on. -/
theorem State.offset_le_of_mem_readOffsets {a : Nat} (h : a ∈ s.readOffsets) : s.offset ≤ a := by
  obtain ⟨hr, hs⟩ := State.scanning_of_mem_readOffsets h
  rw [State.readOffsets_of_scanning hr hs, List.mem_range'_1] at h
  obtain ⟨hle, -⟩ := h
  exact hle

/-- A scanning step reads a stretch of IN that begins at the cursor and ends at or below LENGTH. It leaves the cursor at
the end of that stretch, or at LENGTH if it aborts (R56, R115). -/
theorem ScanStep.reads_from_cursor (h : ScanStep s b t) :
    ∃ n, s.readOffsets = List.range' s.offset n ∧ s.offset + n ≤ s.length ∧
      (t.offset = s.offset + n ∨ t.offset = s.length) := by
  cases h with
  | sphMatch he | sphSkip he | splMatch he | splMiss he | rhAccept he | rcMatch he =>
    have ⟨_, _, hlt⟩ := he
    exact ⟨1, readOffsets_eq_singleton he nofun nofun, hlt, .inl rfl⟩
  | rhUnderflow he | rcMismatch he =>
    have ⟨_, _, hlt⟩ := he
    exact ⟨1, readOffsets_eq_singleton he nofun nofun, hlt, .inr rfl⟩
  | rpCopy he data hd hl =>
    have hend : s.offset + data.length ≤ s.length := (ScanStep.rpCopy (b := b) he data hd hl).offset_le_length
    have hlen : s.dataLength.toNat = data.length := by simp [hd]
    exact ⟨data.length, hlen ▸ readOffsets_of_readPayload he, hend, .inl rfl⟩

/-- A scanning step does not move the cursor back (R26). -/
theorem ScanStep.offset_le (h : ScanStep s b t) : s.offset ≤ t.offset := by
  obtain ⟨n, -, hend, ht | ht⟩ := h.reads_from_cursor <;> omega

/-- FD's own step does not move the cursor back. -/
theorem fdStep_offset_le (h : fdStep s = .next t) : s.offset ≤ t.offset := by
  by_cases hr : s.phase = .run
  · obtain ⟨-, rfl⟩ | ⟨-, hscan⟩ := fdStep_next_cases hr h
    · exact le_rfl
    · exact hscan.offset_le
  · rw [fdStep_rest hr] at h
    cases h
    exact le_rfl

/-! ### Runs -/

/-- A run reads what its first step reads, then what the rest of it reads. -/
theorem readTrace_succ {k : Nat} (h : step s = .next t) : readTrace (k + 1) s = stepReads s ++ readTrace k t := by
  rw [readTrace, h]

/-- A machine with no operation and no host action reads nothing in any number of steps (log 6). -/
theorem readTrace_of_rest (hh : s.host = []) (hr : s.phase ≠ .run) (k : Nat) : readTrace k s = [] := by
  induction k with
  | zero => rfl
  | succ k ih =>
    rw [readTrace_succ ((step_of_host_nil hh).trans (fdStep_rest hr)), stepReads_of_hostQuiet (.inl hh),
      State.readOffsets_of_not_run hr, ih, List.append_nil]

/-- A machine with no operation and no host action rests for any number of steps (log 6). -/
theorem runSteps_of_rest (hh : s.host = []) (hr : s.phase ≠ .run) (k : Nat) : runSteps k s = .next s := by
  induction k with
  | zero => rfl
  | succ k ih => rwa [runSteps_succ, step_of_host_nil hh, fdStep_rest hr]

/-- The step that ends an operation reads nothing, and FD reads nothing after it (R170, R175). -/
theorem readTrace_of_not_scanning (hh : s.host = []) (hr : s.phase = .run) (hs : ¬ s.scanning) (k : Nat) :
    readTrace k s = [] := by
  cases k with
  | zero => rfl
  | succ k =>
    have hstep := (step_of_host_nil hh).trans (fdStep_of_not_scanning hr hs)
    have hrest := readTrace_of_rest (s := s.raiseOutcome (deriveOutcome s.pstate s.dataLength)) hh nofun k
    rw [readTrace_succ hstep, stepReads_of_hostQuiet (.inl hh), State.readOffsets_of_not_scanning hs, hrest,
      List.append_nil]

/-- A running operation that the host leaves alone reads on from the cursor, each offset once, and stays below LENGTH
(R60). After an abort the cursor stands at LENGTH, so that nothing is left to read. -/
theorem readTrace_of_run (hi : rangeInv s) (hr : s.phase = .run) (hh : s.host = []) (k : Nat) :
    ∃ n, s.offset + n ≤ s.length ∧ readTrace k s = List.range' s.offset n := by
  induction k generalizing s with
  | zero => exact ⟨0, hi.offset_le_length hr, rfl⟩
  | succ k ih =>
    by_cases hs : s.scanning
    · obtain ⟨t, hscan, hstep⟩ := exists_fdStep_of_scanning hi hr hs
      obtain ⟨hphase, -, -, hhost⟩ := hscan.keeps_operands
      have hlen := hscan.length_eq
      obtain ⟨m, hreads, hend, hcur⟩ := hscan.reads_from_cursor
      obtain ⟨n, hn, hrest⟩ := ih (hscan.keeps_rangeInv hi) (hphase.trans hr) (hhost.trans hh)
      have htrace : readTrace (k + 1) s = List.range' s.offset m ++ List.range' t.offset n := by
        rw [readTrace_succ ((step_of_host_nil hh).trans hstep), stepReads_of_hostQuiet (.inl hh), hreads, hrest]
      obtain hcur | habort := hcur
      · exact ⟨m + n, by omega, by rw [htrace, hcur, List.range'_append_1]⟩
      · obtain rfl : n = 0 := by omega
        exact ⟨m, hend, by simp [htrace]⟩
    · exact ⟨0, hi.offset_le_length hr, readTrace_of_not_scanning hh hr hs (k + 1)⟩

/-- DECODE reads nothing: an operation reads what it reads after its DECODE. -/
theorem readTrace_decode {present : Bool} {length k : Nat} (h : execDecode present length (s.withHost []) = .next t) :
    readTrace (k + 1) (s.withHost [.decode present length]) = readTrace k t :=
  readTrace_succ (s := s.withHost [.decode present length]) h

/-- A DECODE that starts a scan puts the cursor at offset 0 (R112). -/
theorem execDecode_offset_eq_zero {present : Bool} {length : Nat} (hr : s.phase ≠ .run)
    (h : execDecode present length s = .next t) (ht : t.phase = .run) : t.offset = 0 := by
  obtain ⟨hr', -⟩ | ⟨-, -, rfl⟩ | ⟨-, -, rfl⟩ := execDecode_next h
  · exact absurd hr' hr
  · cases ht
  · rfl

/-- Settles O34: after the DECODE the cursor is at 0, and the scan reads on from there. -/
theorem eachOffsetReadOnceInOrder : Obligations.EachOffsetReadOnceInOrder := by
  intro s present length k hr
  cases k with
  | zero => exact ⟨0, Nat.zero_le _, rfl⟩
  | succ k =>
    obtain ⟨t, hdec, hi, -⟩ := exists_execDecode (s := s.withHost []) hr present length
    have hh : t.host = [] := (execDecode_writes hdec).host
    rw [readTrace_decode hdec]
    by_cases ht : t.phase = .run
    · obtain ⟨n, hn, htrace⟩ := readTrace_of_run hi ht hh k
      have hzero := execDecode_offset_eq_zero (s := s.withHost []) hr hdec ht
      have hlen := execDecode_length (s := s.withHost []) hr hdec
      exact ⟨n, by omega, by rw [htrace, hzero, List.range_eq_range']⟩
    · exact ⟨0, Nat.zero_le _, readTrace_of_rest hh ht k⟩

/-- A DECODE whose entry check fails leaves the machine Done with NotEnoughData (R111). -/
theorem exists_execDecode_of_entryFails {present : Bool} {length : Nat} (hr : s.phase ≠ .run)
    (hfail : entryFails present length) :
    ∃ t, execDecode present length s = .next t ∧ t.phase = .done ∧ t.outcome = .notEnoughData := by
  refine ⟨(s.latchOperands present length).raiseOutcome .notEnoughData, ?_, rfl, rfl⟩
  rw [execDecode, if_neg hr, if_pos hfail]

/-- Settles O35: the DECODE leaves the machine Done, where it rests and reads nothing. -/
theorem failedEntryCheckReadsNothing : Obligations.FailedEntryCheckReadsNothing := by
  intro s present length k hr hfail
  obtain ⟨t, hdec, hdone, hout⟩ := exists_execDecode_of_entryFails (s := s.withHost []) hr hfail
  have hh : t.host = [] := (execDecode_writes hdec).host
  have hrest : t.phase ≠ .run := by simp [hdone]
  refine ⟨?_, t, ?_, hdone, hout⟩
  · cases k with
    | zero => rfl
    | succ k =>
      rw [readTrace_decode hdec]
      exact readTrace_of_rest hh hrest k
  · rw [runSteps_decode, hdec]
    exact runSteps_of_rest hh hrest k

/-! ### Bounds -/

/-- Every read of FD is below LENGTH (R53). -/
theorem rangeInv.readOffsets_lt_length (hi : rangeInv s) : ∀ a ∈ s.readOffsets, a < s.length := by
  intro a ha
  obtain ⟨hr, hs⟩ := State.scanning_of_mem_readOffsets ha
  obtain ⟨t, hscan⟩ := exists_scanStep hi hr hs
  exact hscan.reads_lt_length a ha

/-- RP.COPY stores no more bytes than there are cells (R54). -/
theorem execRpCopy_length_le {data : List Byte} (h : execRpCopy data s = .next t) : data.length ≤ Config.capacity := by
  obtain ⟨⟨-, hlen⟩, -⟩ := execRpCopy_next h
  exact hlen ▸ nibble_le _

/-- No instruction stores to more cells than there are (R54). -/
theorem cellsStored_le_capacity {i : Instr} (h : exec i s = .next t) : cellsStored i ≤ Config.capacity := by
  cases i with
  | rpCopy data => exact execRpCopy_length_le h
  | frame ident payload =>
    obtain ⟨s1, s2, s3, s4, -, -, -, hcopy, -⟩ := execFrame_next h
    exact execRpCopy_length_le hcopy
  | sphMatch | sphSkip | splMatch | splMiss | rhAccept | rhUnderflow | rcMatch | rcMismatch | fin | decode | finalise =>
    exact Nat.zero_le _

/-- Settles O33: a scanning step reads below LENGTH, and a payload has at most 15 bytes. -/
theorem accessesStayInBounds : Obligations.AccessesStayInBounds := by
  refine ⟨fun s hi a ha => hi.readOffsets_lt_length a (mem_readOffsets_of_mem_stepReads ha), ?_⟩
  intro i s t h k hk
  exact Nat.le_of_lt_succ (hk.trans_le (cellsStored_le_capacity h))

end Sys2Proof.Machine
end

section
/-! IN under the steps of FD and the stores of its host (R50, R62): who writes it, and what FD sees of it. -/

namespace Sys2Proof.Machine

variable {s t : State} {m : Memory}

/-- Only the host's store changes IN; it writes no register of FD (R50). -/
theorem step_input_cases (h : step s = .next t) :
    (∃ a b rest, s.host = .writeInput a b :: rest ∧ t = (s.withHost rest).hostWrite a b) ∨
      ((∀ a b rest, s.host ≠ .writeInput a b :: rest) ∧ t.input = s.input) := by
  obtain ⟨hh, h⟩ | ⟨rest, hh, h⟩ | ⟨rest, hh, rfl⟩ | ⟨present, length, rest, hh, h⟩ | hstore := step_cases h
  · exact .inr ⟨by simp [hh], (fdStep_keeps_input h).1⟩
  · exact .inr ⟨by simp [hh], (fdStep_keeps_input h).1⟩
  · exact .inr ⟨by simp [hh], rfl⟩
  · exact .inr ⟨by simp [hh], (execDecode_writes h).input⟩
  · exact .inl hstore

/-- Settles O30: the laws of the byte space for the host's store, and that no other step writes IN. -/
theorem inputKeepsCanonicalForm : Obligations.InputKeepsCanonicalForm := by
  intro s t hwf h
  refine ⟨step_keeps_input_wf hwf h, ?_⟩
  obtain ⟨a, b, rest, hh, rfl⟩ | ⟨hno, hin⟩ := step_input_cases h
  · refine ⟨fun a' b' rest' hh' => ?_, fun hno => absurd hh (hno a b rest)⟩
    cases hh.symm.trans hh'
    exact ⟨Memory.read_write_same a b hwf, fun x hx => Memory.read_write_other hx, rfl⟩
  · exact ⟨fun a b rest hh => absurd hh (hno a b rest), fun _ x => by rw [hin]⟩

/-! ### FD with another input buffer -/

/-- The machine with another input buffer. -/
def State.withInput (s : State) (m : Memory) : State := { s with input := m }

/-- A scanning step is the same with any IN that holds the same bytes at the offsets it reads (R56, log 8). -/
theorem ScanStep.withInput (h : ScanStep s (s.input.read s.offset) t)
    (hm : ∀ a ∈ s.readOffsets, m.read a = s.input.read a) :
    ScanStep (s.withInput m) (m.read s.offset) (t.withInput m) := by
  have hbyte {p : PState} (he : s.scanEnabled p) (hp : p ≠ .readPayload) (hp' : p ≠ .finished) :
      m.read s.offset = s.input.read s.offset := hm _ (by simp [readOffsets_eq_singleton he hp hp'])
  cases h with
  | sphMatch he hb => exact .sphMatch he ((hbyte he nofun nofun).trans hb)
  | sphSkip he hb => exact .sphSkip he (hbyte he nofun nofun ▸ hb)
  | splMatch he hb => exact .splMatch he ((hbyte he nofun nofun).trans hb)
  | splMiss he hb => exact .splMiss he (hbyte he nofun nofun ▸ hb)
  | rhAccept he hf =>
    rw [← hbyte he nofun nofun] at hf ⊢
    exact .rhAccept he hf
  | rhUnderflow he hf =>
    rw [← hbyte he nofun nofun] at hf ⊢
    exact .rhUnderflow he hf
  | rpCopy he data hd hl =>
    rw [readOffsets_of_readPayload he] at hm
    have hd' : data = (List.range' s.offset s.dataLength.toNat).map m.read :=
      hd.trans (List.map_congr_left fun a ha => (hm a ha).symm)
    exact ScanStep.rpCopy (s := s.withInput m) he data hd' hl
  | rcMatch he hb => exact .rcMatch he ((hbyte he nofun nofun).trans hb)
  | rcMismatch he hb => exact .rcMismatch he (hbyte he nofun nofun ▸ hb)

/-- FD's own step sees of IN only the bytes it reads. -/
theorem fdStep_withInput (hm : ∀ a ∈ s.readOffsets, m.read a = s.input.read a) (h : fdStep s = .next t) :
    fdStep (s.withInput m) = .next (t.withInput m) := by
  by_cases hr : s.phase = .run
  · obtain ⟨hs, rfl⟩ | ⟨-, hscan⟩ := fdStep_next_cases hr h
    · exact fdStep_of_not_scanning (s := s.withInput m) hr hs
    · have hpres : ∀ a ∈ s.readOffsets, s.present = true := fun a ha => present_of_fdStep h ha
      exact (hscan.withInput hm).fdStep_eq hpres
  · rw [fdStep_rest hr] at h
    cases h
    exact fdStep_rest hr

/-- Settles O36: the step is FD's own, which sees only the bytes it reads. -/
theorem stepSeesOnlyBytesItReads : Obligations.StepSeesOnlyBytesItReads := by
  intro s t m hq hm h
  rw [stepReads_of_hostQuiet hq] at hm
  rw [step_of_hostQuiet hq] at h
  rw [step_of_hostQuiet (s := { s with input := m }) hq]
  exact fdStep_withInput (s := s.afterPause) hm h

/-- A run that the host leaves alone sees of IN only the bytes from the cursor up to LENGTH: FD reads nowhere else, and
the cursor does not move back (R60). -/
theorem runSteps_withInput {k : Nat} (hh : s.host = [])
    (hm : ∀ x, s.offset ≤ x → x < s.length → m.read x = s.input.read x) (h : runSteps k s = .next t) :
    runSteps k (s.withInput m) = .next (t.withInput m) := by
  induction k generalizing s with
  | zero =>
    cases h
    rfl
  | succ k ih =>
    rw [runSteps_succ, step_of_host_nil hh, andThen_eq_next_iff] at h
    obtain ⟨u, hstep, hrun⟩ := h
    obtain ⟨hin, hhost⟩ := fdStep_keeps_input hstep
    have hlen := fdStep_length_eq hstep
    have hoff := fdStep_offset_le hstep
    have hmu : ∀ x, u.offset ≤ x → x < u.length → m.read x = u.input.read x := by
      rw [hin, hlen]
      exact fun x hx hlt => hm x (hoff.trans hx) hlt
    have hreads : ∀ a ∈ s.readOffsets, m.read a = s.input.read a := by
      intro a ha
      obtain ⟨hr, hs⟩ := State.scanning_of_mem_readOffsets ha
      obtain ⟨hns, -⟩ | ⟨-, hscan⟩ := fdStep_next_cases hr hstep
      · exact absurd hs hns
      · exact hm a (State.offset_le_of_mem_readOffsets ha) (hscan.reads_lt_length a ha)
    rw [runSteps_succ, step_of_host_nil (s := s.withInput m) hh, fdStep_withInput hreads hstep]
    exact ih (hhost.trans hh) hmu hrun

/-- Settles O37: the store is a step that writes IN alone, and the run after it reads none of what it changed. It needs
neither the range invariants nor PHASE = Run. -/
theorem storesOffTheScanAreInvisible : Obligations.StoresOffTheScanAreInvisible := by
  intro s t a b k _ _ hstore hrun
  exact runSteps_withInput (s := s.withHost []) rfl hstore hrun

end Sys2Proof.Machine
end

section
/-! The decoder and the encoder (R80, R84, R86, R96): the whole-frame pattern both ways, one equation of `decodeScan`
for each scan state, and from them that `decode` and `encode` are inverse to each other. -/

namespace Sys2Proof

open Machine

variable {c : ScanContext} {sel : Selector} {i : Instr} {b : Byte} {bytes rest : List Byte}

theorem frameBytes_append (ident : Nibble) (payload rest : List Byte) :
    frameBytes ident payload ++ rest =
      Config.preambleHi :: Config.preambleLo :: headerByte (payloadLength payload) ident ::
        (payload ++ frameChecksum ident payload :: rest) := by
  simp [frameBytes]

/-- The whole-frame decoder reads exactly the frames of at most 15 payload bytes, with whatever follows (R81, R96). -/
theorem decodeFrame_eq_some_iff :
    decodeFrame bytes = some (i, rest) ↔
      ∃ ident payload, i = .frame ident payload ∧ payload.length ≤ Config.capacity ∧
        bytes = frameBytes ident payload ++ rest := by
  constructor
  · intro h
    unfold decodeFrame at h
    split at h
    · dsimp only at h
      split at h
      · rename_i hframe
        obtain ⟨hlen, htake⟩ := hframe
        cases h
        refine ⟨_, _, rfl, hlen.trans_le (nibble_le _), ?_⟩
        exact (List.take_append_drop _ _).symm.trans (congrArg (· ++ _) htake)
      · cases h
    · cases h
  · rintro ⟨ident, payload, rfl, hn, rfl⟩
    have hwhole : (frameBytes ident payload ++ rest).take (frameBytes ident payload).length =
        frameBytes ident payload := List.take_left
    have hrest : (frameBytes ident payload ++ rest).drop (frameBytes ident payload).length = rest := List.drop_left
    rw [frameBytes_append] at hwhole hrest ⊢
    have hpayload : (payload ++ frameChecksum ident payload :: rest).take payload.length = payload := List.take_left
    simp only [decodeFrame, hi4_headerByte, lo4_headerByte, payloadLength_toNat hn, hpayload, hwhole, hrest, and_self,
      if_true]

/-! `decodeScan` in each scan state (R86). -/

theorem decodeScan_seekPreambleHigh (hp : c.pstate = .seekPreambleHigh) :
    decodeScan c (b :: rest) = some (if b = Config.preambleHi then .sphMatch else .sphSkip b, rest) := by
  simp only [decodeScan, hp]

theorem decodeScan_seekPreambleLow (hp : c.pstate = .seekPreambleLow) :
    decodeScan c (b :: rest) = some (if b = Config.preambleLo then .splMatch else .splMiss b, rest) := by
  simp only [decodeScan, hp]

theorem decodeScan_readHeader (hp : c.pstate = .readHeader) :
    decodeScan c (b :: rest) =
      some (if headerFits c.length c.offset (hi4 b) then .rhAccept (hi4 b) (lo4 b)
        else .rhUnderflow (hi4 b) (lo4 b), rest) := by
  simp only [decodeScan, hp]

theorem decodeScan_readPayload (hp : c.pstate = .readPayload) :
    decodeScan c bytes =
      if c.dataLength.toNat ≤ bytes.length
      then some (.rpCopy (bytes.take c.dataLength.toNat), bytes.drop c.dataLength.toNat) else none := by
  simp only [decodeScan, hp, clampLength_eq]

theorem decodeScan_readChecksum (hp : c.pstate = .readChecksum) :
    decodeScan c (b :: rest) = some (if b = c.sum then .rcMatch b else .rcMismatch b, rest) := by
  simp only [decodeScan, hp]

theorem decodeScan_finished (hp : c.pstate = .finished) : decodeScan c bytes = some (.fin, bytes) := by
  simp only [decodeScan, hp]

@[simp] theorem Selector.inState_scan {p : PState} {cond : ScanContext → Bool} :
    (Selector.scan c).inState p cond = (c.pstate == p && cond c) := rfl

/-- A row of R86's table applies only to a scanning step in its scan state, under its condition. -/
theorem Selector.inState_eq_true_iff {p : PState} {cond : ScanContext → Bool} :
    sel.inState p cond = true ↔ ∃ c, sel = .scan c ∧ c.pstate = p ∧ cond c = true := by
  cases sel <;> simp [Selector.inState]

/-- Decode of encode: no bit of an encoding is dropped. -/
theorem decode_encode (h : rowApplies sel i = true) (rest : List Byte) :
    decode sel (encode i ++ rest) = some (i, rest) := by
  cases i with
  | sphMatch =>
    obtain ⟨c, rfl, hp, -⟩ := Selector.inState_eq_true_iff.mp h
    exact decodeScan_seekPreambleHigh hp
  | sphSkip b =>
    obtain ⟨c, rfl, hp, hb⟩ := Selector.inState_eq_true_iff.mp h
    change decodeScan c (b :: rest) = _
    rw [decodeScan_seekPreambleHigh hp, if_neg (bne_iff_ne.mp hb)]
  | splMatch =>
    obtain ⟨c, rfl, hp, -⟩ := Selector.inState_eq_true_iff.mp h
    exact decodeScan_seekPreambleLow hp
  | splMiss b =>
    obtain ⟨c, rfl, hp, hb⟩ := Selector.inState_eq_true_iff.mp h
    change decodeScan c (b :: rest) = _
    rw [decodeScan_seekPreambleLow hp, if_neg (bne_iff_ne.mp hb)]
  | rhAccept len ident =>
    obtain ⟨c, rfl, hp, hf⟩ := Selector.inState_eq_true_iff.mp h
    change decodeScan c (headerByte len ident :: rest) = _
    rw [decodeScan_readHeader hp, hi4_headerByte, lo4_headerByte, if_pos (of_decide_eq_true hf)]
  | rhUnderflow len ident =>
    obtain ⟨c, rfl, hp, hf⟩ := Selector.inState_eq_true_iff.mp h
    change decodeScan c (headerByte len ident :: rest) = _
    rw [decodeScan_readHeader hp, hi4_headerByte, lo4_headerByte, if_neg (by simpa using hf)]
  | rpCopy data =>
    obtain ⟨c, rfl, hp, hn⟩ := Selector.inState_eq_true_iff.mp h
    have hn : data.length = c.dataLength.toNat := by simpa using hn
    refine (decodeScan_readPayload hp).trans ?_
    simp [encode, ← hn]
  | rcMatch b =>
    obtain ⟨c, rfl, hp, hb⟩ := Selector.inState_eq_true_iff.mp h
    change decodeScan c (b :: rest) = _
    rw [decodeScan_readChecksum hp, if_pos (eq_of_beq hb)]
  | rcMismatch b =>
    obtain ⟨c, rfl, hp, hb⟩ := Selector.inState_eq_true_iff.mp h
    change decodeScan c (b :: rest) = _
    rw [decodeScan_readChecksum hp, if_neg (bne_iff_ne.mp hb)]
  | fin =>
    obtain ⟨c, rfl, hp, -⟩ := Selector.inState_eq_true_iff.mp h
    exact decodeScan_finished hp
  | decode present length =>
    obtain rfl := eq_of_beq h
    rfl
  | finalise =>
    obtain rfl := eq_of_beq h
    rfl
  | frame ident payload =>
    obtain ⟨hsel, hn⟩ := Bool.and_eq_true_iff.mp h
    obtain rfl := eq_of_beq hsel
    exact decodeFrame_eq_some_iff.mpr ⟨ident, payload, rfl, of_decide_eq_true hn, rfl⟩

/-- A selector of an instruction's row: the row's scan state, with LENGTH, DATALENGTH and SUM as its condition asks. -/
def Instr.rowSelector : Instr → Selector
  | .sphMatch | .sphSkip _ => .scan ⟨.seekPreambleHigh, 0, 0, 0, 0⟩
  | .splMatch | .splMiss _ => .scan ⟨.seekPreambleLow, 0, 0, 0, 0⟩
  | .rhAccept len _ => .scan ⟨.readHeader, len.toNat + 2, 0, 0, 0⟩
  | .rhUnderflow _ _ => .scan ⟨.readHeader, 0, 0, 0, 0⟩
  | .rpCopy data => .scan ⟨.readPayload, 0, 0, payloadLength data, 0⟩
  | .rcMatch c => .scan ⟨.readChecksum, 0, 0, 0, c⟩
  | .rcMismatch c => .scan ⟨.readChecksum, 0, 0, 0, ~~~c⟩
  | .fin => .scan ⟨.finished, 0, 0, 0, 0⟩
  | .decode present length => .command present length
  | .finalise => .finalise
  | .frame _ _ => .frame

theorem rowApplies_rowSelector (h : i.wellFormed = true) : rowApplies i.rowSelector i = true := by
  cases i with
  | sphMatch | splMatch | fin | finalise => rfl
  | sphSkip b | splMiss b | frame ident payload => exact h
  | rhAccept | rhUnderflow | rcMatch | decode => simp [rowApplies, Instr.rowSelector]
  | rpCopy data =>
    have hn := payloadLength_toNat (of_decide_eq_true h)
    simp [rowApplies, Instr.rowSelector, hn]
  | rcMismatch c =>
    have hne : c ≠ ~~~c := by revert c; decide
    simp [rowApplies, Instr.rowSelector, hne]

/-- Settles O22: `decode_encode`, and the selector of each well-formed instruction's row. -/
theorem decodeOfEncodeIsIdentity : Obligations.DecodeOfEncodeIsIdentity :=
  ⟨fun _ _ rest h => decode_encode h rest, fun i h => ⟨i.rowSelector, rowApplies_rowSelector h⟩⟩

/-- A scanning row is decoded only from as many bytes as its step consumes (R86). -/
theorem bytesConsumed_le_length (h : decodeScan c bytes = some (i, rest)) :
    bytesConsumed c.pstate c.dataLength ≤ bytes.length := by
  by_contra hshort
  cases hp : c.pstate with
  | seekPreambleHigh | seekPreambleLow | readHeader | readChecksum =>
    obtain rfl : bytes = [] := by simpa [hp, bytesConsumed] using hshort
    simp [decodeScan, hp] at h
  | readPayload =>
    rw [decodeScan_readPayload hp, if_neg (by simpa [hp, bytesConsumed] using hshort)] at h
    cases h
  | finished => simp [hp, bytesConsumed] at hshort

/-- There is no illegal byte (R87): any bytes long enough for the step of the scan state begin with the encoding of a
well-formed row that applies. -/
theorem exists_row (h : bytesConsumed c.pstate c.dataLength ≤ bytes.length) :
    ∃ i rest, bytes = encode i ++ rest ∧ rowApplies (.scan c) i = true ∧ i.wellFormed = true := by
  cases hp : c.pstate with
  | seekPreambleHigh =>
    obtain ⟨b, rest, rfl⟩ := List.exists_cons_of_length_pos (by rwa [hp] at h)
    by_cases hb : b = Config.preambleHi
    · exact ⟨.sphMatch, rest, by rw [hb]; rfl, by simp [rowApplies, hp], rfl⟩
    · exact ⟨.sphSkip b, rest, rfl, by simp [rowApplies, hp, hb], bne_iff_ne.mpr hb⟩
  | seekPreambleLow =>
    obtain ⟨b, rest, rfl⟩ := List.exists_cons_of_length_pos (by rwa [hp] at h)
    by_cases hb : b = Config.preambleLo
    · exact ⟨.splMatch, rest, by rw [hb]; rfl, by simp [rowApplies, hp], rfl⟩
    · exact ⟨.splMiss b, rest, rfl, by simp [rowApplies, hp, hb], bne_iff_ne.mpr hb⟩
  | readHeader =>
    obtain ⟨b, rest, rfl⟩ := List.exists_cons_of_length_pos (by rwa [hp] at h)
    by_cases hf : headerFits c.length c.offset (hi4 b)
    · exact ⟨.rhAccept (hi4 b) (lo4 b), rest, by simp [encode], by simp [rowApplies, hp]; omega, rfl⟩
    · exact ⟨.rhUnderflow (hi4 b) (lo4 b), rest, by simp [encode], by simp [rowApplies, hp]; omega, rfl⟩
  | readPayload =>
    have hn : (bytes.take c.dataLength.toNat).length = c.dataLength.toNat := by
      simpa [hp, bytesConsumed] using h
    exact ⟨.rpCopy (bytes.take c.dataLength.toNat), bytes.drop c.dataLength.toNat, (List.take_append_drop _ _).symm,
      by simp [rowApplies, hp, hn], decide_eq_true (hn.trans_le (nibble_le _))⟩
  | readChecksum =>
    obtain ⟨b, rest, rfl⟩ := List.exists_cons_of_length_pos (by rwa [hp] at h)
    by_cases hb : b = c.sum
    · exact ⟨.rcMatch b, rest, rfl, by simp [rowApplies, hp, hb], rfl⟩
    · exact ⟨.rcMismatch b, rest, rfl, by simp [rowApplies, hp, hb], rfl⟩
  | finished => exact ⟨.fin, bytes, rfl, by simp [rowApplies, hp], rfl⟩

/-- Encode of decode: a scanning row is the one `exists_row` finds, since the decoder reads that one back. -/
theorem encode_decode (h : decode sel bytes = some (i, rest)) :
    bytes = encode i ++ rest ∧ rowApplies sel i = true ∧ i.wellFormed = true := by
  cases sel with
  | command present length =>
    cases h
    exact ⟨rfl, beq_self_eq_true _, rfl⟩
  | scan c =>
    obtain ⟨j, rest', rfl, hrow, hwf⟩ := exists_row (bytesConsumed_le_length h)
    cases (decode_encode hrow rest').symm.trans h
    exact ⟨rfl, hrow, hwf⟩
  | finalise =>
    cases h
    exact ⟨rfl, rfl, rfl⟩
  | frame =>
    obtain ⟨ident, payload, rfl, hn, rfl⟩ := decodeFrame_eq_some_iff.mp h
    exact ⟨rfl, decide_eq_true hn, decide_eq_true hn⟩

/-- Settles O23: `encode_decode`, stated for all selectors and bytes. -/
theorem encodeOfDecodeIsIdentity : Obligations.EncodeOfDecodeIsIdentity :=
  fun _ _ _ _ h => encode_decode h

/-- Settles O24: some row applies (`exists_row`), and two that apply to the same bytes are both what the decoder reads
from them (`decode_encode`). -/
theorem exactlyOneRowApplies : Obligations.ExactlyOneRowApplies := by
  intro c bytes hlen
  obtain ⟨i, rest, rfl, hrow, -⟩ := exists_row hlen
  refine ⟨i, ⟨hrow, rest, rfl⟩, ?_⟩
  rintro j ⟨hrow', rest', heq⟩
  have hj := decode_encode hrow' rest'
  rw [← heq, decode_encode hrow rest] at hj
  cases hj
  rfl

end Sys2Proof
end

section
/-! The numeric codes (R91, R92), the row FIN, and the words written out from the encodings. -/

namespace Sys2Proof

open Machine

/-- Settles O3: the bounds on the codes are the finite lists of R91 and R92. -/
theorem numericCodesAsListed : Obligations.NumericCodesAsListed := by
  refine ⟨by decide, by decide, by decide, fun o => ?_, fun p => ?_, fun p => ?_⟩
  · cases o <;> decide
  · cases p <;> decide
  · cases p <;> decide

/-- Settles O15: FIN is guarded by PSTATE = FIN alone. -/
theorem finRowWritesNothing : Obligations.FinRowWritesNothing :=
  fun _ => ⟨fun h => if_pos h, fun h => if_neg h⟩

/-- Settles O20: the decoder, run on the ten words. -/
theorem writtenWordsDecode : Obligations.WrittenWordsDecode := by
  unfold Obligations.WrittenWordsDecode
  decide

end Sys2Proof
end

section
/-! Whole frames (R80, R81, R96): FRAME as one instruction (log 11), and the five steps of FD on a frame's bytes. -/

namespace Sys2Proof.Machine

variable {s t : State} {b : Byte} {ident : Nibble} {payload : List Byte}

/-! The five meanings of a frame, where their rows are enabled (R86, R113). -/

theorem execSphMatch_of_enabled (he : s.scanEnabled .seekPreambleHigh) :
    execSphMatch s = .next ((s.beginFrame.goto .seekPreambleLow).advance 1) := if_pos he

theorem execSplMatch_of_enabled (he : s.scanEnabled .seekPreambleLow) :
    execSplMatch s = .next (((s.addToSum [Config.preambleLo]).goto .readHeader).advance 1) := if_pos he

theorem execRhAccept_of_enabled {len : Nibble} (he : s.scanEnabled .readHeader)
    (hf : headerFits s.length s.offset len) :
    execRhAccept len ident s = .next (((s.latchHeader len ident).goto .readPayload).advance 1) := if_pos ⟨he, hf⟩

theorem execRpCopy_of_enabled {data : List Byte} (he : s.scanEnabled .readPayload)
    (hn : data.length = s.dataLength.toNat) :
    execRpCopy data s = .next ((((s.copyPayload data).addToSum data).goto .readChecksum).advance data.length) :=
  if_pos ⟨he, by rwa [clampLength_eq]⟩

theorem execRcMatch_of_enabled {c : Byte} (he : s.scanEnabled .readChecksum) (hc : c = s.sum) :
    execRcMatch c s = .next ((s.goto .finished).advance 1) := if_pos ⟨he, hc⟩

/-- What FRAME(i; p) leaves (R81, R96): the whole frame passed, its checksum in SUM and its fields in the registers. -/
def State.takeFrame (s : State) (ident : Nibble) (payload : List Byte) : State :=
  { s with
    pstate := .finished
    offset := s.offset + 4 + payload.length
    fstart := s.offset
    sum := frameChecksum ident payload
    identifier := ident
    dataLength := payloadLength payload
    payload := storePayload s.payload 0 payload }

/-- FRAME answers in SPH where the bytes of the frame lie below LENGTH: each of its five meanings leaves the next one
enabled. -/
theorem execFrame_eq_takeFrame (hr : s.phase = .run) (hp : s.pstate = .seekPreambleHigh)
    (hn : payload.length ≤ Config.capacity) (hfit : s.offset + 4 + payload.length ≤ s.length) :
    execFrame ident payload s = .next (s.takeFrame ident payload) := by
  have hlen := payloadLength_toNat hn
  rw [execFrame, execSphMatch_of_enabled ⟨hr, hp, by omega⟩, andThen_next, execSplMatch_of_enabled, andThen_next,
    execRhAccept_of_enabled, andThen_next, execRpCopy_of_enabled, andThen_next, execRcMatch_of_enabled]
  · simp [State.takeFrame, State.beginFrame, State.goto, State.advance, State.addToSum, State.latchHeader,
      State.copyPayload, frameChecksum]
    omega
  · simp [State.scanEnabled, hr]; omega
  · simp [frameChecksum]
  · simp [State.scanEnabled, hr]; omega
  · simp [hlen]
  · simp [State.scanEnabled, hr]; omega
  · simp [hlen]; omega
  · simp [State.scanEnabled, hr]; omega

/-- Settles O17: `takeFrame` writes the registers named, and `storePayload` leaves in PAYLOAD the cells named. -/
theorem frameDecodesItself : Obligations.FrameDecodesItself := by
  intro s ident payload hr hp hn hfit
  refine ⟨storePayload s.payload 0 payload, fun k => ?_, execFrame_eq_takeFrame hr hp hn hfit⟩
  simp [storePayload_getElem]

theorem Memory.holds_append {m : Memory} {a : Nat} {xs ys : List Byte} :
    m.holds a (xs ++ ys) = true ↔ m.holds a xs = true ∧ m.holds (a + xs.length) ys = true := by
  induction xs generalizing a with
  | nil => simp [holds]
  | cons x xs ih => simp [holds, ih, Nat.add_assoc, Nat.add_comm 1, and_assoc]

/-- The bytes IN holds are the ones a read of their offsets gives. -/
theorem Memory.map_read_of_holds {m : Memory} {a : Nat} {bytes : List Byte} (h : m.holds a bytes = true) :
    (List.range' a bytes.length).map m.read = bytes := by
  induction bytes generalizing a with
  | nil => rfl
  | cons b rest ih =>
    obtain ⟨hb, hrest⟩ := Bool.and_eq_true_iff.mp h
    simp [List.range'_succ, ih hrest, eq_of_beq hb]

/-- The parts of a frame in IN (R80), each at the offset of the step that reads it. -/
theorem Memory.holds_frameBytes {m : Memory} {a : Nat} (h : m.holds a (frameBytes ident payload) = true) :
    m.read a = Config.preambleHi ∧ m.read (a + 1) = Config.preambleLo ∧
      m.read (a + 1 + 1) = headerByte (payloadLength payload) ident ∧ m.holds (a + 1 + 1 + 1) payload = true ∧
      m.read (a + 1 + 1 + 1 + payload.length) = frameChecksum ident payload := by
  simpa [frameBytes, holds, holds_append, Nat.add_assoc, and_assoc] using h

/-- Where FRAME answers and IN holds its bytes at the cursor, FD's scanning steps on them lead to the state it answers:
each of FRAME's five meanings is enabled, and is the row of the byte it finds. -/
theorem exists_scanSteps_of_execFrame (h : execFrame ident payload s = .next t)
    (hin : s.input.holds s.offset (frameBytes ident payload) = true) :
    ∃ s1 s2 s3 s4, ScanStep s (s.input.read s.offset) s1 ∧ ScanStep s1 (s1.input.read s1.offset) s2 ∧
      ScanStep s2 (s2.input.read s2.offset) s3 ∧ ScanStep s3 (s3.input.read s3.offset) s4 ∧
      ScanStep s4 (s4.input.read s4.offset) t := by
  obtain ⟨hhi, hlo, hhead, hdata, hsum⟩ := Memory.holds_frameBytes hin
  obtain ⟨s1, s2, s3, s4, h1, h2, h3, h4, h5⟩ := execFrame_next h
  obtain ⟨he1, hs1⟩ := execSphMatch_next h1
  obtain ⟨he2, hs2⟩ := execSplMatch_next h2
  obtain ⟨⟨he3, hfits⟩, hs3⟩ := execRhAccept_next h3
  obtain ⟨⟨he4, hlen⟩, hs4⟩ := execRpCopy_next h4
  obtain ⟨⟨he5, hc⟩, ht⟩ := execRcMatch_next h5
  refine ⟨s1, s2, s3, s4, ?_, ?_, ?_, ?_, ?_⟩
  · rw [hs1]
    exact .sphMatch he1 hhi
  · rw [hs2]
    exact .splMatch he2 (by simpa [hs1] using hlo)
  · have hb : s2.input.read s2.offset = headerByte (payloadLength payload) ident := by simpa [hs1, hs2] using hhead
    rw [← hi4_headerByte (payloadLength payload) ident, ← hb] at hfits
    simpa [hb, hs3] using ScanStep.rhAccept he3 hfits
  · have hdata' : s3.input.holds s3.offset payload = true := by simpa [hs1, hs2, hs3] using hdata
    have hbelow : s3.offset + payload.length < s3.length := by
      obtain ⟨-, -, hlt⟩ := he5
      simpa [hs4] using hlt
    rw [clampLength_eq] at hlen
    rw [hs4]
    refine .rpCopy he4 payload ?_ ?_ <;> rw [← hlen]
    · exact (Memory.map_read_of_holds hdata').symm
    · intro a ha
      obtain ⟨-, hlt⟩ := List.mem_range'_1.mp ha
      exact hlt.trans hbelow
  · rw [ht]
    refine .rcMatch he5 ?_
    rw [← hc]
    simpa [hs1, hs2, hs3, hs4] using hsum

/-- FD alone takes a scanning step as the next step of a run. -/
theorem ScanStep.runSteps_succ_eq (h : ScanStep s (s.input.read s.offset) t) (ha : s.host = [] ∧ s.present = true)
    (k : Nat) : runSteps (k + 1) s = runSteps k t := by
  obtain ⟨hh, hpres⟩ := ha
  rw [runSteps_succ, step_of_host_nil hh, h.fdStep_eq fun _ _ => hpres, andThen_next]

/-- FD stays alone over a scanning step. -/
theorem ScanStep.keeps_alone (h : ScanStep s b t) (ha : s.host = [] ∧ s.present = true) :
    t.host = [] ∧ t.present = true := by
  obtain ⟨-, hpres, -, hh⟩ := h.keeps_operands
  rwa [hh, hpres]

/-- Settles O18: FRAME answers (`execFrame_eq_takeFrame`), and a run of FD alone takes its five scanning steps. -/
theorem fiveStepsAreOneFrame : Obligations.FiveStepsAreOneFrame := by
  intro s ident payload hr hp hpres hh hn hfit hin
  have hframe : execFrame ident payload s = .next (s.takeFrame ident payload) :=
    execFrame_eq_takeFrame hr hp hn hfit
  obtain ⟨s1, s2, s3, s4, step1, step2, step3, step4, step5⟩ := exists_scanSteps_of_execFrame hframe hin
  have ha1 := step1.keeps_alone ⟨hh, hpres⟩
  have ha2 := step2.keeps_alone ha1
  have ha3 := step3.keeps_alone ha2
  have ha4 := step4.keeps_alone ha3
  calc runSteps 5 s = runSteps 4 s1 := step1.runSteps_succ_eq ⟨hh, hpres⟩ 4
    _ = runSteps 3 s2 := step2.runSteps_succ_eq ha1 3
    _ = runSteps 2 s3 := step3.runSteps_succ_eq ha2 2
    _ = runSteps 1 s4 := step4.runSteps_succ_eq ha3 1
    _ = runSteps 0 (s.takeFrame ident payload) := step5.runSteps_succ_eq ha4 0
    _ = exec (.frame ident payload) s := hframe.symm

end Sys2Proof.Machine
end

section
/-! The operation and its command (R110 to R113, R118, R121): what DECODE does, what a step runs, and that the scan
ends. -/

namespace Sys2Proof.Machine

variable {s : State}

/-- Settles O38: a scan comes to its end within `scanFuel` steps, and FINALISE is the step after it. -/
theorem everyOperationEnds : Obligations.EveryOperationEnds := by
  intro s hi hr hh
  obtain ⟨k, t, hk, hrun, htr, hts, hth⟩ := exists_scanEnd hi hr hh
  exact ⟨k, t, hk.trans (scanFuel_le s), hrun, htr, hts, _,
    (step_of_host_nil hth).trans (fdStep_of_not_scanning htr hts), rfl⟩

/-! DECODE in each of its three rows. -/

theorem execDecode_of_run {present : Bool} {length : Nat} (hr : s.phase = .run) :
    execDecode present length s = .next s := if_pos hr

theorem execDecode_of_entryFails {present : Bool} {length : Nat} (hr : s.phase ≠ .run)
    (hfail : entryFails present length) :
    execDecode present length s = .next ((s.latchOperands present length).raiseOutcome .notEnoughData) := by
  rw [execDecode, if_neg hr, if_pos hfail]

theorem execDecode_of_minFrame_le {length : Nat} (hr : s.phase ≠ .run) (hmin : Config.minFrame ≤ length) :
    execDecode true length s = .next (s.latchOperands true length).startScan := by
  rw [execDecode, if_neg hr, if_neg (by simpa using hmin)]

/-- Settles O5: latching the operands and raising NotEnoughData write the four registers named. -/
theorem decodeEntryCheckFails : Obligations.DecodeEntryCheckFails :=
  fun _ _ _ hr hfail => execDecode_of_entryFails hr hfail

/-- Settles O6: latching the operands and starting the scan write the five registers named. -/
theorem decodeStartsScan : Obligations.DecodeStartsScan :=
  fun _ _ hr hmin => execDecode_of_minFrame_le hr hmin

/-- Settles O7: DECODE tests PHASE first, and the step takes the host's action alone. -/
theorem decodeIgnoredWhileRunning : Obligations.DecodeIgnoredWhileRunning :=
  fun s _ _ hr => ⟨execDecode_of_run hr, fun rest hh =>
    (step_of_host_cons hh).trans (execDecode_of_run (s := s.withHost rest) hr)⟩

/-- Settles O19: the pause apart, a step is FD's own, which fetches the row decoded from existing bytes, or rests. -/
theorem stepRunsDecodedInstruction : Obligations.StepRunsDecodedInstruction := by
  refine ⟨fun s i rest hq hr hin hd => ?_, fun s hq hr => ?_, fun s present length rest hh => step_of_host_cons hh⟩
  · have hf : fetch s.afterPause = .next i :=
      fetch_eq_next_iff.mpr ⟨fun a ha => ⟨hr, hin a ha⟩, rest, hd⟩
    rw [step_of_hostQuiet hq]
    exact fdStep_run hr hf
  · rw [step_of_hostQuiet hq]
    exact fdStep_rest (s := s.afterPause) hr

end Sys2Proof.Machine
end

section
/-! What selects a row, where the scan goes, and how it ends (R113 to R117, R120). -/

namespace Sys2Proof.Machine

variable {s t : State}

/-- A guarded meaning answers under its guard and is refused elsewhere. -/
theorem guarded_answers_or_refuses {p q : Prop} [Decidable p] {x : State} {r : Refusal} (hqp : q ↔ p) :
    (q → ∃ t, (if p then Host.Outcome.next x else .refused r : Host.Outcome State Fault Refusal) = .next t) ∧
      (¬ q → (if p then Host.Outcome.next x else .refused r : Host.Outcome State Fault Refusal) = .refused r) :=
  ⟨fun hq => ⟨x, if_pos (hqp.mp hq)⟩, fun hq => if_neg fun hp => hq (hqp.mpr hp)⟩

/-- A row of the scan is selected where the scanning step of its state is enabled, under its condition (R113, R86). -/
theorem selected_iff_scanEnabled {p : PState} {cond : ScanContext → Bool} (hp : p ≠ .finished) :
    s.phase = .run ∧ s.selector.inState p cond = true ↔ s.scanEnabled p ∧ cond s.scanContext = true := by
  by_cases hs : s.scanning
  · have ⟨_, hlt⟩ := hs
    simp [State.selector_of_scanning hs, State.scanEnabled, State.scanContext, hlt, and_assoc]
  · rw [State.selector_of_not_scanning hs]
    refine ⟨fun ⟨_, h⟩ => (nomatch h), fun ⟨⟨_, hps, hlt⟩, _⟩ => ?_⟩
    exact absurd ⟨hps ▸ hp, hlt⟩ hs

/-- FINALISE is selected exactly where it is enabled (R113, R170). -/
theorem selected_iff_finaliseEnabled :
    s.phase = .run ∧ rowApplies s.selector .finalise = true ↔ s.finaliseEnabled := by
  have hend : s.selector = .finalise ↔ ¬ s.scanning := by
    by_cases hs : s.scanning <;> simp [State.selector, hs]
  simp [rowApplies, hend, State.finaliseEnabled, State.scanning, or_iff_not_imp_left]

/-- Settles O21: each own step is guarded by what R113 and R86 ask for its row. -/
theorem exactlySelectedRowsRun : Obligations.ExactlySelectedRowsRun := by
  intro s i hown
  cases i with
  | sphMatch | splMatch =>
    exact guarded_answers_or_refuses ((selected_iff_scanEnabled (by decide)).trans (and_iff_left rfl))
  | sphSkip | splMiss | rcMismatch =>
    exact guarded_answers_or_refuses ((selected_iff_scanEnabled (by decide)).trans (and_congr_right' bne_iff_ne))
  | rhAccept =>
    exact guarded_answers_or_refuses
      ((selected_iff_scanEnabled (by decide)).trans (and_congr_right' decide_eq_true_iff))
  | rhUnderflow =>
    exact guarded_answers_or_refuses
      ((selected_iff_scanEnabled (by decide)).trans (and_congr_right' (by simp [State.scanContext])))
  | rpCopy | rcMatch =>
    exact guarded_answers_or_refuses ((selected_iff_scanEnabled (by decide)).trans (and_congr_right' beq_iff_eq))
  | finalise => exact guarded_answers_or_refuses selected_iff_finaliseEnabled
  | fin | decode | frame => cases hown

/-- The sufficiency test with the cursor on an existing header byte, as the graph's edge states it (R142). -/
theorem headerFits_hi4_iff {length offset : Nat} {b : Byte} (hlt : offset < length) :
    headerFits length offset (hi4 b) ↔ offset + b.toNat / 16 + 2 ≤ length := by
  rw [headerFits, hi4_toNat]
  omega

/-- A scanning step takes the edge of the transition graph that the byte at the cursor selects (R117). -/
theorem ScanStep.pstate_eq_scanGraph (h : ScanStep s (s.input.read s.offset) t) : t.pstate = scanGraph s := by
  cases h with
  | sphMatch he hb | splMatch he hb | rcMatch he hb =>
    obtain ⟨-, hp, -⟩ := he
    simp only [scanGraph, hp]
    exact (if_pos hb).symm
  | sphSkip he hb | rcMismatch he hb =>
    obtain ⟨-, hp, -⟩ := he
    simp only [scanGraph, hp]
    exact hp.trans (if_neg hb).symm
  | splMiss he hb =>
    obtain ⟨-, hp, -⟩ := he
    simp only [scanGraph, hp]
    exact (if_neg hb).symm
  | rhAccept he hf =>
    obtain ⟨-, hp, hlt⟩ := he
    simp only [scanGraph, hp]
    exact (if_pos ((headerFits_hi4_iff hlt).mp hf)).symm
  | rhUnderflow he hf =>
    obtain ⟨-, hp, hlt⟩ := he
    simp only [scanGraph, hp]
    exact hp.trans (if_neg (mt (headerFits_hi4_iff hlt).mpr hf)).symm
  | rpCopy he =>
    obtain ⟨-, hp, -⟩ := he
    simp only [scanGraph, hp]
    rfl

/-- Settles O32: FD's step is FINALISE, or a scanning step along the graph's edge with the cursor kept within LENGTH. -/
theorem onlyGraphEdgesAreTaken : Obligations.OnlyGraphEdgesAreTaken := by
  intro s t _ hq hr h
  rw [step_of_hostQuiet hq] at h
  obtain ⟨hns, rfl⟩ | ⟨hs, hscan⟩ := fdStep_next_cases (s := s.afterPause) hr h
  · exact ⟨fun hs => absurd hs hns, fun _ => ⟨rfl, rfl, rfl⟩⟩
  · exact ⟨fun _ => ⟨hscan.pstate_eq_scanGraph, hscan.offset_le, hscan.offset_le_length⟩, fun hns => absurd hs hns⟩

/-- No scanning step writes OUTCOME (R40). -/
theorem ScanStep.outcome_eq {b : Byte} (h : ScanStep s b t) : t.outcome = s.outcome := by
  cases h <;> rfl

/-- What a step without a reset does to PHASE and OUTCOME: it keeps both, it is FINALISE (R170), or it is a DECODE in
Idle or Done whose entry check fails (R111) or passes (R112). -/
inductive PhaseStep (s t : State) : Prop where
  | kept (hphase : t.phase = s.phase) (hout : t.outcome = s.outcome)
      (hdec : ∀ present length rest, s.host = .decode present length :: rest → s.phase = .run)
  | finalised (hr : s.phase = .run) (hphase : t.phase = .done)
      (hout : t.outcome = deriveOutcome s.pstate s.dataLength)
  | failed {present : Bool} {length : Nat} {rest : List HostAction} (hr : s.phase ≠ .run)
      (hh : s.host = .decode present length :: rest) (hphase : t.phase = .done) (hout : t.outcome = .notEnoughData)
  | started {present : Bool} {length : Nat} {rest : List HostAction} (hr : s.phase ≠ .run)
      (hh : s.host = .decode present length :: rest) (hpass : ¬ entryFails present length) (hphase : t.phase = .run)
      (hout : t.outcome = s.outcome)

/-- FD's own step keeps PHASE and OUTCOME but for FINALISE. `actions` is what the host has left to do. -/
theorem phaseStep_of_fdStep {actions : List HostAction}
    (hdec : ∀ present length rest, s.host ≠ .decode present length :: rest)
    (h : fdStep (s.withHost actions) = .next t) : PhaseStep s t := by
  have hno : ∀ present length rest, s.host = .decode present length :: rest → s.phase = .run :=
    fun present length rest hh => absurd hh (hdec present length rest)
  by_cases hr : s.phase = .run
  · obtain ⟨-, rfl⟩ | ⟨-, hscan⟩ := fdStep_next_cases (s := s.withHost actions) hr h
    · exact .finalised hr rfl rfl
    · obtain ⟨hphase, -⟩ := hscan.keeps_operands
      exact .kept hphase hscan.outcome_eq hno
  · rw [fdStep_rest (s := s.withHost actions) hr] at h
    cases h
    exact .kept rfl rfl hno

/-- The inversion of `step` for PHASE and OUTCOME. -/
theorem phaseStep_of_step (h : step s = .next t) (hreset : ∀ rest, s.host ≠ .reset :: rest) : PhaseStep s t := by
  obtain ⟨hh, h⟩ | ⟨rest, hh, h⟩ | ⟨rest, hh, -⟩ | ⟨present, length, rest, hh, h⟩ | ⟨a, v, rest, hh, rfl⟩ :=
    step_cases h
  · exact phaseStep_of_fdStep (actions := s.host) (by simp [hh]) h
  · exact phaseStep_of_fdStep (by simp [hh]) h
  · exact absurd hh (hreset rest)
  · obtain ⟨hr, rfl⟩ | ⟨hr, -, rfl⟩ | ⟨hr, hpass, rfl⟩ := execDecode_next h
    · exact .kept rfl rfl fun _ _ _ _ => hr
    · exact .failed hr hh rfl rfl
    · exact .started hr hh hpass rfl rfl
  · exact .kept rfl rfl (by simp [hh])

/-- Settles O39: by the four things a step without a reset does to PHASE and OUTCOME. -/
theorem oneOutcomePerOperation : Obligations.OneOutcomePerOperation := by
  intro s t h hreset
  cases phaseStep_of_step h hreset with
  | kept hphase hout hdec =>
    refine ⟨fun hne => absurd hout hne, ?_, ?_, ?_, fun _ _ => hout, fun _ _ => hout⟩
    · intro hr ht
      simp [hr, ht] at hphase
    · intro hr ht
      simp [hr, ht] at hphase
    · exact fun present length rest hr hh => absurd (hdec present length rest hh) hr
  | finalised hr hphase hout => simp [hr, hphase, hout]
  | failed hr hh hphase hout => simp [hr, hh, hphase, hout]
  | started hr hh hpass hphase hout =>
    refine ⟨fun hne => absurd hout hne, fun hr' => absurd hr' hr, ?_, ?_, fun hr' => absurd hr' hr, fun _ _ => hout⟩
    · intro _ ht
      simp [ht] at hphase
    · intro present length rest _ hh' hfail
      cases hh.symm.trans hh'
      exact absurd hfail hpass

/-- After an abort the scan is over (R115). -/
theorem not_scanning_abortScan (s : State) : ¬ s.abortScan.scanning :=
  fun ⟨_, hlt⟩ => Nat.lt_irrefl _ hlt

/-- A running operation that aborts reads nothing more, and FINALISE is its next step (R115, R116). -/
theorem abortScan_ends (hr : s.phase = .run) (hh : s.host = []) :
    s.abortScan.readOffsets = [] ∧
      step s.abortScan = .next (s.abortScan.raiseOutcome (deriveOutcome s.pstate s.dataLength)) :=
  ⟨State.readOffsets_of_not_scanning (not_scanning_abortScan s),
    (step_of_host_nil (s := s.abortScan) hh).trans (fdStep_of_not_scanning hr (not_scanning_abortScan s))⟩

/-- Settles O48: both rows abort, in RH and in RC. -/
theorem abortEndsTheOperation : Obligations.AbortEndsTheOperation := by
  intro s t hh
  refine ⟨fun len ident h => ?_, fun c h => ?_⟩
  · obtain ⟨⟨⟨hr, hp, -⟩, -⟩, rfl⟩ := execRhUnderflow_next h
    obtain ⟨hreads, hstep⟩ := abortScan_ends (s := s.latchHeader len ident) hr hh
    refine ⟨rfl, hp, hreads, hstep.trans ?_⟩
    simp [hp, deriveOutcome, State.raiseOutcome]
  · obtain ⟨⟨⟨hr, hp, -⟩, -⟩, rfl⟩ := execRcMismatch_next h
    obtain ⟨hreads, hstep⟩ := abortScan_ends hr hh
    refine ⟨rfl, hp, hreads, hstep.trans ?_⟩
    simp [hp, deriveOutcome, State.raiseOutcome]

end Sys2Proof.Machine
end

section
/-! The step machine against the reference function decode_ref (R122): a simulation, one turn of the loop for each
scanning step. -/

namespace Sys2Proof.Machine

variable {before s t : State} {r : RefLoop} {m : Memory}

/-- PAYLOAD is what decode_ref gives; a cell it gives as "-" holds what it held before the operation. -/
def cellsAgree (before : Vector Byte Config.capacity) (pay : Vector (Option Byte) Config.capacity)
    (cells : Vector Byte Config.capacity) : Prop :=
  ∀ k : Fin Config.capacity, cells[k] = (pay[k]).getD before[k]

/-- The machine, in an operation that found it in `before`, stands where the loop of decode_ref stands. -/
structure RefSimulates (before : State) (r : RefLoop) (s : State) : Prop where
  ps : r.ps = s.pstate
  off : r.off = s.offset
  sum : s.pstate ≠ .seekPreambleHigh → r.sum = some s.sum
  identifier : s.identifier = r.id.getD before.identifier
  dataLength : s.dataLength = r.dl.getD before.dataLength
  latched : s.pstate = .readPayload ∨ s.pstate = .readChecksum ∨ s.pstate = .finished → r.dl = some s.dataLength
  cells : cellsAgree before.payload r.pay s.payload

/-! ### The copy loop of RP -/

/-- The copy loop writes SUM and PAYLOAD alone. -/
theorem refCopy_keeps (off k n : Nat) (r : RefLoop) :
    (refCopy m off k n r).id = r.id ∧ (refCopy m off k n r).dl = r.dl := by
  induction n generalizing k r with
  | zero => exact ⟨rfl, rfl⟩
  | succ n ih => exact ih (k + 1) _

/-- The copy loop adds to SUM the bytes it copies. -/
theorem refCopy_sum (off k n : Nat) {sum : Byte} (h : r.sum = some sum) :
    (refCopy m off k n r).sum = some (addBytes sum ((List.range' (off + k) n).map m.read)) := by
  induction n generalizing k r sum with
  | zero => exact h
  | succ n ih =>
    rw [refCopy, ih (sum := add8 sum (m.read (off + k))) (k + 1) (by simp [h, add8])]
    simp [List.range'_succ, Nat.add_assoc]

/-- A byte stored in both keeps the agreement. -/
theorem cellsAgree_set {before cells : Vector Byte Config.capacity} {pay : Vector (Option Byte) Config.capacity}
    (k : Nat) (v : Byte) (h : cellsAgree before pay cells) :
    cellsAgree before (pay.setIfInBounds k (some v)) (cells.setIfInBounds k v) := by
  intro j
  by_cases hj : k = j.val
  · simp [hj]
  · simpa [hj] using h j

/-- The copy loop stores what MemWrite of the same bytes stores (R152). -/
theorem refCopy_cells (off k n : Nat) {before cells : Vector Byte Config.capacity}
    (h : cellsAgree before r.pay cells) :
    cellsAgree before (refCopy m off k n r).pay
      (storePayload cells k ((List.range' (off + k) n).map m.read)) := by
  induction n generalizing k r cells with
  | zero => exact h
  | succ n ih => exact ih (k + 1) (cellsAgree_set k _ h)

/-! ### One turn of the loop -/

theorem ofNat_mod_eq_lo4 (b : Byte) : BitVec.ofNat 4 (b.toNat % 16) = lo4 b := by
  rw [← lo4_toNat, BitVec.ofNat_toNat, BitVec.setWidth_eq]

theorem ofNat_div_eq_hi4 (b : Byte) : BitVec.ofNat 4 (b.toNat / 16) = hi4 b := by
  rw [← hi4_toNat, BitVec.ofNat_toNat, BitVec.setWidth_eq]

/-- A turn of the loop on the byte at the cursor is the scanning step of that byte. -/
theorem RefSimulates.refTurn (h : RefSimulates before r s) (hscan : ScanStep s (s.input.read s.offset) t) :
    RefSimulates before (refTurn s.length s.input r) t := by
  obtain ⟨ps, off, fs, sum, id, dl, pay⟩ := r
  obtain ⟨rfl, rfl, hsum, hid, hdl, hlatched, hcells⟩ := h
  cases hscan with
  | sphMatch he hb =>
    obtain ⟨-, hp, -⟩ := he
    have hb : s.input.read s.offset = 0x44 := hb
    simp only [Machine.refTurn, hp, hb, if_true]
    exact ⟨rfl, rfl, fun _ => rfl, hid, hdl, by simp, hcells⟩
  | sphSkip he hb =>
    obtain ⟨-, hp, -⟩ := he
    have hb : s.input.read s.offset ≠ 0x44 := hb
    simp only [Machine.refTurn, hp, hb, if_false]
    exact ⟨hp.symm, rfl, hsum, hid, hdl, hlatched, hcells⟩
  | splMatch he hb =>
    obtain ⟨-, hp, -⟩ := he
    have hb : s.input.read s.offset = 0x43 := hb
    simp only [Machine.refTurn, hp, hb, if_true]
    have hs : sum = some s.sum := hsum (by simp [hp])
    exact ⟨rfl, rfl, fun _ => by simp [hs, add8, Config.preambleLo], hid, hdl, by simp, hcells⟩
  | splMiss he hb =>
    obtain ⟨-, hp, -⟩ := he
    have hb : s.input.read s.offset ≠ 0x43 := hb
    simp only [Machine.refTurn, hp, hb, if_false]
    exact ⟨rfl, rfl, by simp, hid, hdl, by simp, hcells⟩
  | rhAccept he hf =>
    obtain ⟨-, hp, -⟩ := he
    rw [headerFits, hi4_toNat] at hf
    simp only [Machine.refTurn, hp, if_pos hf, ofNat_mod_eq_lo4, ofNat_div_eq_hi4]
    have hs : sum = some s.sum := hsum (by simp [hp])
    exact ⟨rfl, rfl, fun _ => by simp [hs, add8], rfl, rfl, fun _ => rfl, hcells⟩
  | rhUnderflow he hf =>
    obtain ⟨-, hp, -⟩ := he
    rw [headerFits, hi4_toNat] at hf
    simp only [Machine.refTurn, hp, if_neg hf, ofNat_mod_eq_lo4, ofNat_div_eq_hi4]
    have hs : sum = some s.sum := hsum (by simp [hp])
    exact ⟨hp.symm, rfl, fun _ => by simp [hs, add8], rfl, rfl, by simp [hp], hcells⟩
  | rpCopy he data hd =>
    obtain ⟨-, hp, -⟩ := he
    have hs : sum = some s.sum := hsum (by simp [hp])
    have hl : dl = some s.dataLength := hlatched (by simp [hp])
    simp only [Machine.refTurn, hp, hl, Option.getD_some]
    subst hd
    refine ⟨rfl, by simp, fun _ => ?_, ?_, ?_, fun _ => ?_, ?_⟩
    · exact refCopy_sum _ 0 _ hs
    · simpa [refCopy_keeps] using hid
    · simp [refCopy_keeps]
    · simp [refCopy_keeps]
    · exact refCopy_cells _ 0 _ hcells
  | rcMatch he hb =>
    obtain ⟨-, hp, -⟩ := he
    have hs : sum = some s.sum := hsum (by simp [hp])
    simp only [Machine.refTurn, hp, hs, hb, if_true]
    exact ⟨rfl, rfl, fun _ => rfl, hid, hdl, fun _ => hlatched (by simp [hp]), hcells⟩
  | rcMismatch he hb =>
    obtain ⟨-, hp, -⟩ := he
    have hs : sum = some s.sum := hsum (by simp [hp])
    have hne : some s.sum ≠ some (s.input.read s.offset) := fun heq => hb (Option.some.inj heq).symm
    simp only [Machine.refTurn, hp, hs, if_neg hne]
    exact ⟨hp.symm, rfl, fun _ => rfl, hid, hdl, hlatched, hcells⟩

/-! ### The loop -/

/-- The loop goes on exactly while the scan does (R113). -/
theorem RefSimulates.loops_iff (h : RefSimulates before r s) :
    (r.ps ≠ .finished ∧ r.off < s.length) ↔ s.scanning := by
  rw [h.ps, h.off]

/-- A running operation that the host leaves alone comes to the end of its scan where the loop of decode_ref ends. -/
theorem RefSimulates.exists_scanEnd {fuel : Nat} (h : RefSimulates before r s) (hi : rangeInv s)
    (hr : s.phase = .run) (hh : s.host = []) (hfuel : scanFuel s ≤ fuel) :
    ∃ k t, runSteps k s = .next t ∧ t.phase = .run ∧ ¬ t.scanning ∧ t.host = [] ∧
      RefSimulates before (refLoop s.length s.input fuel r) t := by
  induction fuel generalizing r s with
  | zero =>
    have hs : ¬ s.scanning := fun hs => by
      obtain ⟨t, hscan⟩ := exists_scanStep hi hr hs
      have hlt := hscan.scanFuel_lt
      omega
    exact ⟨0, s, rfl, hr, hs, hh, h⟩
  | succ fuel ih =>
    by_cases hs : s.scanning
    · obtain ⟨u, hscan, hstep⟩ := exists_fdStep_of_scanning hi hr hs
      obtain ⟨hphase, -, hin, hhost⟩ := hscan.keeps_operands
      have hlt := hscan.scanFuel_lt
      obtain ⟨k, t, hrun, hend⟩ :=
        ih (h.refTurn hscan) (hscan.keeps_rangeInv hi) (hphase.trans hr) (hhost.trans hh) (by omega)
      rw [hscan.length_eq, hin] at hend
      rw [refLoop, if_pos (h.loops_iff.mpr hs)]
      refine ⟨k + 1, t, ?_, hend⟩
      rw [runSteps_succ, step_of_host_nil hh, hstep]
      exact hrun
    · rw [refLoop, if_neg (mt h.loops_iff.mp hs)]
      exact ⟨0, s, rfl, hr, hs, hh, h⟩

/-- decode_ref derives the outcome that FINALISE derives (R170). -/
theorem RefSimulates.refOutcome_eq (h : RefSimulates before r s) :
    refOutcome r = deriveOutcome s.pstate s.dataLength := by
  rw [refOutcome, h.ps]
  cases hp : s.pstate with
  | finished => simp [deriveOutcome, h.latched (by simp [hp])]
  | seekPreambleHigh | seekPreambleLow | readHeader | readPayload | readChecksum => rfl

/-- The scan and the loop start together, with nothing written yet (R112). -/
theorem refSimulates_startScan (s : State) (length : Nat) :
    RefSimulates s refStart (s.latchOperands true length).startScan where
  ps := rfl
  off := rfl
  sum hsph := absurd rfl hsph
  identifier := rfl
  dataLength := rfl
  latched := by simp
  cells k := by simp [refStart]

/-- An operation whose DECODE starts a scan ends with FINALISE, one step after the scan. -/
theorem operationEnds_of_scanEnd {length k : Nat} (hr : s.phase ≠ .run) (hmin : Config.minFrame ≤ length)
    (hrun : runSteps k ((s.withHost []).latchOperands true length).startScan = .next t) (htr : t.phase = .run)
    (hts : ¬ t.scanning) (hth : t.host = []) :
    operationEnds s true length (t.raiseOutcome (deriveOutcome t.pstate t.dataLength)) := by
  refine ⟨rfl, k + 1 + 1, Nat.succ_pos _, ?_⟩
  rw [runSteps_decode, execDecode_of_minFrame_le (s := s.withHost []) hr hmin, andThen_next]
  refine runSteps_add hrun ?_
  rw [runSteps_succ, step_of_host_nil hth, fdStep_of_not_scanning htr hts]
  rfl

/-- An operation whose entry check fails ends with its DECODE (R111). -/
theorem operationEnds_of_entryFails {present : Bool} {length : Nat} (hr : s.phase ≠ .run)
    (hfail : entryFails present length) :
    operationEnds s present length (((s.withHost []).latchOperands present length).raiseOutcome .notEnoughData) := by
  refine ⟨rfl, 1, Nat.one_pos, ?_⟩
  rw [runSteps_decode, execDecode_of_entryFails (s := s.withHost []) hr hfail]
  rfl

theorem decodeRef_of_entryFails {present : Bool} {length : Nat} (hfail : entryFails present length) :
    decodeRef present length m =
      { outcome := .notEnoughData, identifier := none, dataLength := none,
        payload := Vector.replicate Config.capacity none } := if_pos hfail

theorem decodeRef_of_minFrame_le {length : Nat} (hmin : Config.minFrame ≤ length) :
    decodeRef true length m =
      { outcome := refOutcome (refLoop length m (length + 1) refStart)
        identifier := (refLoop length m (length + 1) refStart).id
        dataLength := (refLoop length m (length + 1) refStart).dl
        payload := (refLoop length m (length + 1) refStart).pay } :=
  if_neg (not_or.mpr ⟨nofun, Nat.not_lt.mpr hmin⟩)

/-- Settles O40: a failing entry check writes no field, and otherwise the scan ends where decode_ref's loop ends. -/
theorem operationMatchesReference : Obligations.OperationMatchesReference := by
  intro s present length hr
  by_cases hfail : entryFails present length
  · refine ⟨_, operationEnds_of_entryFails hr hfail, ?_⟩
    rw [decodeRef_of_entryFails hfail]
    exact ⟨rfl, rfl, rfl, by simp⟩
  · obtain ⟨hp, hmin⟩ := not_or.mp hfail
    obtain rfl := Bool.eq_true_of_not_eq_false hp
    have hmin := Nat.le_of_not_lt hmin
    obtain ⟨k, t, hrun, htr, hts, hth, hsim⟩ :=
      (refSimulates_startScan (s.withHost []) length).exists_scanEnd (rangeInv_startScan hmin) rfl rfl
        (scanFuel_le _)
    refine ⟨_, operationEnds_of_scanEnd hr hmin hrun htr hts hth, ?_⟩
    rw [decodeRef_of_minFrame_le hmin]
    exact ⟨hsim.refOutcome_eq.symm, hsim.identifier, hsim.dataLength, hsim.cells⟩

end Sys2Proof.Machine
end

section
/-! A frame after bytes without 0x44 (R123): the bytes before it are skipped, its own are taken as FRAME takes them. -/

namespace Sys2Proof.Machine

variable {s : State} {lead payload : List Byte} {ident : Nibble}

/-- FD alone in SPH skips bytes other than 0x44 (R130). -/
theorem runSteps_skip (hr : s.phase = .run) (hp : s.pstate = .seekPreambleHigh) (ha : s.host = [] ∧ s.present = true)
    (hlead : ∀ b ∈ lead, b ≠ Config.preambleHi) (hin : s.input.holds s.offset lead = true)
    (hfit : s.offset + lead.length ≤ s.length) : runSteps lead.length s = .next (s.advance lead.length) := by
  induction lead generalizing s with
  | nil => rfl
  | cons b rest ih =>
    obtain ⟨hb, hrest⟩ := List.forall_mem_cons.mp hlead
    obtain ⟨hread, hin⟩ := Bool.and_eq_true_iff.mp hin
    rw [List.length_cons] at hfit
    have hskip : ScanStep s (s.input.read s.offset) (s.advance 1) :=
      .sphSkip ⟨hr, hp, by omega⟩ (eq_of_beq hread ▸ hb)
    rw [List.length_cons, hskip.runSteps_succ_eq ha,
      ih (s := s.advance 1) hr hp ha hrest hin (by simp; omega)]
    simp [State.advance, Nat.add_assoc, Nat.add_comm 1]

/-- FD alone, from the start of a scan, comes to FIN on a frame after bytes without 0x44. -/
theorem runSteps_lead_frame (hr : s.phase = .run) (hp : s.pstate = .seekPreambleHigh)
    (ha : s.host = [] ∧ s.present = true) (hlead : ∀ b ∈ lead, b ≠ Config.preambleHi)
    (hn : payload.length ≤ Config.capacity) (hin : s.input.holds s.offset (lead ++ frameBytes ident payload) = true)
    (hfit : s.offset + lead.length + 4 + payload.length ≤ s.length) :
    runSteps (lead.length + 5) s = .next ((s.advance lead.length).takeFrame ident payload) := by
  obtain ⟨hinLead, hinFrame⟩ := Memory.holds_append.mp hin
  obtain ⟨hh, hpres⟩ := ha
  refine runSteps_add (runSteps_skip hr hp ⟨hh, hpres⟩ hlead hinLead (by omega)) ?_
  rw [fiveStepsAreOneFrame (s.advance lead.length) ident payload hr hp hpres hh hn hfit hinFrame]
  exact execFrame_eq_takeFrame (s := s.advance lead.length) hr hp hn hfit

/-- The cells a payload was copied to hold it (R150). -/
theorem take_storePayload (cells : Vector Byte Config.capacity) (hn : payload.length ≤ Config.capacity) :
    (storePayload cells 0 payload).toList.take payload.length = payload := by
  refine List.ext_getElem (by simpa using hn) fun k hk hk' => ?_
  simp [storePayload_getElem, hk']

/-- A frame taken whole gives Ok, or MessageEmpty where it has no payload (R170). -/
theorem deriveOutcome_finished (hn : payload.length ≤ Config.capacity) :
    deriveOutcome .finished (payloadLength payload) = if payload = [] then .messageEmpty else .ok := by
  simp only [deriveOutcome, payloadLength_toNat hn]
  by_cases he : payload = []
  · simp [he]
  · simp [he, List.length_pos_iff]

@[simp] theorem State.takeFrame_pstate (s : State) : (s.takeFrame ident payload).pstate = .finished := rfl

@[simp] theorem State.takeFrame_dataLength (s : State) :
    (s.takeFrame ident payload).dataLength = payloadLength payload := rfl

/-- What the host reads after a frame taken whole (R173). -/
theorem hostView_takeFrame (s : State) (ident : Nibble) (hn : payload.length ≤ Config.capacity) :
    ((s.takeFrame ident payload).raiseOutcome (if payload = [] then .messageEmpty else .ok)).hostView =
      { busy := false, done := true, outcome := some (if payload = [] then .messageEmpty else .ok)
        identifier := some ident, dataLength := some (payloadLength payload), payload := payload } := by
  have hvalid : framedOutcome (if payload = [] then .messageEmpty else .ok) = true := by split <;> rfl
  rw [hostView_of_done rfl]
  simp [hvalid, State.takeFrame, payloadLength_toNat hn, take_storePayload _ hn]

/-- Settles O43: the scan skips the leading bytes and takes the frame, and FINALISE follows. -/
theorem frameIsDecodedWholly : Obligations.FrameIsDecodedWholly := by
  intro s lead payload ident length hr hlead hn hin hfit
  have hlen : lead.length + 4 + payload.length ≤ length := by
    simp [frameBytes] at hfit
    omega
  have hrun := runSteps_lead_frame (s := ((s.withHost []).latchOperands true length).startScan) (ident := ident)
    rfl rfl ⟨rfl, rfl⟩ hlead hn hin (by simpa using hlen)
  have hmin : Config.minFrame ≤ length := by
    simp only [Config.minFrame]
    omega
  have hends := operationEnds_of_scanEnd hr hmin hrun rfl (fun ⟨hfin, _⟩ => hfin rfl) rfl
  rw [State.takeFrame_pstate, State.takeFrame_dataLength, deriveOutcome_finished hn] at hends
  refine ⟨_, hends, rfl, ?_⟩
  rw [hostView_takeFrame _ _ hn]
  exact ⟨rfl, rfl, rfl⟩

end Sys2Proof.Machine
end

section
/-! The preamble detector (R130, R131): the four rows and their selection, where a run of bytes 0x44 locks (R132), and
a buffer without the preamble pair (R135). -/

namespace Sys2Proof.Machine

variable {s t : State} {b : Byte}

/-! The rows not of a frame, where they are enabled (R86, R113). -/

theorem execSphSkip_of_enabled (he : s.scanEnabled .seekPreambleHigh) (hb : b ≠ Config.preambleHi) :
    execSphSkip b s = .next (s.advance 1) := if_pos ⟨he, hb⟩

theorem execSplMiss_of_enabled (he : s.scanEnabled .seekPreambleLow) (hb : b ≠ Config.preambleLo) :
    execSplMiss b s = .next ((s.goto .seekPreambleHigh).advance 1) := if_pos ⟨he, hb⟩

/-- Settles O8: each row is enabled, and FD runs the one decoded from the byte at the cursor. -/
theorem seekPreambleHighStep : Obligations.SeekPreambleHighStep :=
  fun s he => ⟨execSphMatch_of_enabled he, fun _ hb => execSphSkip_of_enabled he hb,
    fun hpres => (fdStep_seekPreambleHigh he hpres).trans (apply_ite (exec · s) _ _ _)⟩

/-- Settles O9: each row is enabled, and FD runs the one decoded from the byte at the cursor. -/
theorem seekPreambleLowStep : Obligations.SeekPreambleLowStep :=
  fun s he => ⟨execSplMatch_of_enabled he, fun _ hb => execSplMiss_of_enabled he hb,
    fun hpres => (fdStep_seekPreambleLow he hpres).trans (apply_ite (exec · s) _ _ _)⟩

/-! ### Runs of the first preamble byte -/

/-- A run of `k` bytes 0x44 and then 0x43, entered in SPH. Two bytes 0x44 take FD back to SPH, as the second is
consumed by SPL.MISS; so the last byte 0x44 is matched in SPH if k is odd, and 0x43 is tested in SPH if k is even. -/
theorem runSteps_preambleRun (k : Nat) (hr : s.phase = .run) (hp : s.pstate = .seekPreambleHigh)
    (ha : s.host = [] ∧ s.present = true) (hfit : s.offset + k + 1 ≤ s.length)
    (hin : s.input.holds s.offset (List.replicate k Config.preambleHi ++ [Config.preambleLo]) = true) :
    ∃ t, runSteps (k + 1) s = .next t ∧ t.phase = .run ∧ t.offset = s.offset + k + 1 ∧
      (k % 2 = 1 → t.pstate = .readHeader ∧ t.fstart + 1 = s.offset + k) ∧
      (k % 2 = 0 → t.pstate = .seekPreambleHigh) := by
  have he : s.scanEnabled .seekPreambleHigh := ⟨hr, hp, by omega⟩
  induction k using Nat.twoStepInduction generalizing s with
  | zero =>
    have hlo : s.input.read s.offset = Config.preambleLo := by simpa [Memory.holds] using hin
    have hskip : ScanStep s (s.input.read s.offset) (s.advance 1) := .sphSkip he (by rw [hlo]; decide)
    exact ⟨_, hskip.runSteps_succ_eq ha 0, hr, rfl, nofun, fun _ => hp⟩
  | one =>
    obtain ⟨hhi, hlo⟩ :
        s.input.read s.offset = Config.preambleHi ∧ s.input.read (s.offset + 1) = Config.preambleLo := by
      simpa [Memory.holds] using hin
    have hmatch := ScanStep.sphMatch he hhi
    have hlock := ScanStep.splMatch (s := (s.beginFrame.goto .seekPreambleLow).advance 1) ⟨hr, rfl, hfit⟩ hlo
    have hrun := (hmatch.runSteps_succ_eq ha 1).trans (hlock.runSteps_succ_eq (hmatch.keeps_alone ha) 0)
    exact ⟨_, hrun, hr, rfl, fun _ => ⟨rfl, rfl⟩, nofun⟩
  | more k ih _ =>
    obtain ⟨hhi, hhi', hrest⟩ : s.input.read s.offset = Config.preambleHi ∧
        s.input.read (s.offset + 1) = Config.preambleHi ∧
        s.input.holds (s.offset + 1 + 1) (List.replicate k Config.preambleHi ++ [Config.preambleLo]) = true := by
      simpa [Memory.holds, List.replicate_succ] using hin
    have hmatch := ScanStep.sphMatch he hhi
    have hmiss := ScanStep.splMiss (s := (s.beginFrame.goto .seekPreambleLow).advance 1)
      (b := s.input.read (s.offset + 1)) ⟨hr, rfl, by simp; omega⟩ (by rw [hhi']; decide)
    have ha' := hmatch.keeps_alone ha
    obtain ⟨t, hrun, htr, hoff, hodd, heven⟩ :=
      ih (s := (((s.beginFrame.goto .seekPreambleLow).advance 1).goto .seekPreambleHigh).advance 1) hr rfl
        (hmiss.keeps_alone ha') (by simp; omega) hrest ⟨hr, rfl, by simp; omega⟩
    simp only [State.advance_offset, State.goto_offset, State.beginFrame_offset] at hoff hodd
    refine ⟨t, ?_, htr, by omega, fun h => ?_, fun h => heven (by omega)⟩
    · rw [hmatch.runSteps_succ_eq ha, hmiss.runSteps_succ_eq ha']
      exact hrun
    · obtain ⟨hrh, hfs⟩ := hodd (by omega)
      exact ⟨hrh, by omega⟩

/-- Settles O47: SPL.MISS is the row of a byte 0x44 in SPL, so bytes of a run are consumed in pairs. -/
theorem oddRunsOfPreambleByteLock : Obligations.OddRunsOfPreambleByteLock := by
  refine ⟨fun s he hpres hh hb => ?_, fun s k hr hp hpres hh hfit hin =>
    runSteps_preambleRun k hr hp ⟨hh, hpres⟩ hfit hin⟩
  have hmiss : ScanStep s (s.input.read s.offset) ((s.goto .seekPreambleHigh).advance 1) :=
    .splMiss he (by rw [hb]; decide)
  exact (step_of_host_nil hh).trans (hmiss.fdStep_eq fun _ _ => hpres)

/-! ### A buffer without the preamble pair -/

/-- What every scanning step keeps holds wherever a run of FD alone has led an operation that still runs. -/
theorem runSteps_keeps {P : State → Prop} {k : Nat}
    (hkeep : ∀ ⦃u v⦄, ScanStep u (u.input.read u.offset) v → P u → P v) (hh : s.host = [])
    (hrun : runSteps k s = .next t) (ht : t.phase = .run) (hP : P s) : P t := by
  induction k generalizing s with
  | zero =>
    cases hrun
    exact hP
  | succ k ih =>
    rw [runSteps_succ, step_of_host_nil hh, andThen_eq_next_iff] at hrun
    obtain ⟨u, hstep, hrun⟩ := hrun
    obtain ⟨-, huh⟩ := fdStep_keeps_input hstep
    have huh := huh.trans hh
    have hur : u.phase = .run := by
      by_contra hur
      cases (runSteps_of_rest huh hur k).symm.trans hrun
      exact hur ht
    exact ih huh hrun (hkeep (scanStep_of_fdStep hstep hur) hP)

/-- A scan of a buffer without the preamble pair: still in SPH, or in SPL just after a byte 0x44 (R135). -/
structure SeeksPreamble (s : State) : Prop where
  noPair : noPreamblePair s.input s.length
  place : s.pstate = .seekPreambleHigh ∨
    s.pstate = .seekPreambleLow ∧ ∃ j, s.offset = j + 1 ∧ s.input.read j = Config.preambleHi

/-- Without the pair SPL.MATCH is never taken, and so no scanning step leaves SPH and SPL. -/
theorem ScanStep.keeps_seeksPreamble (h : ScanStep s (s.input.read s.offset) t) (hseek : SeeksPreamble s) :
    SeeksPreamble t := by
  obtain ⟨hno, hplace⟩ := hseek
  refine ⟨?_, ?_⟩
  · obtain ⟨-, -, hin, -⟩ := h.keeps_operands
    rwa [hin, h.length_eq]
  · cases h with
    | sphMatch he hb => exact .inr ⟨rfl, s.offset, rfl, hb⟩
    | sphSkip he =>
      obtain ⟨-, hp, -⟩ := he
      exact .inl hp
    | splMatch he hb =>
      obtain ⟨-, hp, hlt⟩ := he
      obtain ⟨j, hj, hhi⟩ : ∃ j, s.offset = j + 1 ∧ s.input.read j = Config.preambleHi := by
        simpa [hp] using hplace
      rw [hj] at hlt hb
      exact absurd ⟨hhi, hb⟩ (hno j hlt)
    | splMiss => exact .inl rfl
    | rhAccept he | rhUnderflow he | rpCopy he | rcMatch he | rcMismatch he =>
      obtain ⟨-, hp, -⟩ := he
      simp [hp] at hplace

/-- The scan ends in SPH or SPL, from which FINALISE derives WrongHeader (R170). -/
theorem SeeksPreamble.deriveOutcome_eq (h : SeeksPreamble s) :
    deriveOutcome s.pstate s.dataLength = .wrongHeader := by
  obtain hp | ⟨hp, -⟩ := h.place <;> rw [hp] <;> rfl

/-- Where such a scan is over the cursor is at the end of the buffer. -/
theorem SeeksPreamble.offset_eq_length (h : SeeksPreamble s) (hi : rangeInv s) (hr : s.phase = .run)
    (hs : ¬ s.scanning) : s.offset = s.length := by
  have hfin : s.pstate ≠ .finished := by
    obtain hp | ⟨hp, -⟩ := h.place <;> simp [hp]
  exact (hi.offset_le_length hr).antisymm (Nat.not_lt.mp fun hlt => hs ⟨hfin, hlt⟩)

/-- Settles O46: the scan comes to its end (R118), there it is still in SPH or SPL, and FINALISE follows. -/
theorem noPreambleGivesWrongHeader : Obligations.NoPreambleGivesWrongHeader := by
  intro s length hr hmin hno
  have hi : rangeInv ((s.withHost []).latchOperands true length).startScan := rangeInv_startScan hmin
  obtain ⟨k, t, -, hrun, htr, hts, hth⟩ := exists_scanEnd hi rfl rfl
  have hti : rangeInv t := runSteps_keeps (fun _ _ h => h.keeps_rangeInv) rfl hrun htr hi
  have hseek : SeeksPreamble t :=
    runSteps_keeps (fun _ _ h => h.keeps_seeksPreamble) rfl hrun htr ⟨hno, .inl rfl⟩
  have hlen : t.length = length :=
    runSteps_keeps (P := fun u => u.length = length) (fun _ _ h => h.length_eq.trans) rfl hrun htr rfl
  exact ⟨_, operationEnds_of_scanEnd hr hmin hrun htr hts hth, hseek.deriveOutcome_eq,
    (hseek.offset_eq_length hti htr hts).trans hlen⟩

end Sys2Proof.Machine
end

section
/-! The header decoder (R140 to R143): the two rows and the sufficiency test that selects between them, and a frame
cut short, which does not pass it (R145, R181). -/

namespace Sys2Proof.Machine

variable {s : State} {lead payload : List Byte} {ident : Nibble}

/-- The sufficiency test with the cursor on an existing header byte (R142). -/
theorem headerFits_iff {length offset : Nat} {len : Nibble} (hlt : offset < length) :
    headerFits length offset len ↔ offset + len.toNat + 2 ≤ length := by
  rw [headerFits]
  omega

theorem execRhUnderflow_of_enabled {len : Nibble} (he : s.scanEnabled .readHeader)
    (hf : ¬ headerFits s.length s.offset len) :
    execRhUnderflow len ident s = .next (s.latchHeader len ident).abortScan := if_pos ⟨he, hf⟩

/-- Settles O10: where the frame fits RH.ACCEPT is enabled, and where it does not RH.UNDERFLOW is. -/
theorem readHeaderStep : Obligations.ReadHeaderStep := by
  intro s len ident he
  have ⟨_, _, hlt⟩ := he
  exact ⟨fun hfit => execRhAccept_of_enabled he ((headerFits_iff hlt).mpr hfit),
    fun hshort => execRhUnderflow_of_enabled he (mt (headerFits_iff hlt).mp (Nat.not_le.mpr hshort))⟩

/-- Settles O11: FD decodes the byte at the cursor, and its two nibbles are the operands of either row. -/
theorem sufficiencyTestSelectsTheRow : Obligations.SufficiencyTestSelectsTheRow := by
  intro s he hpres
  have ⟨_, _, hlt⟩ := he
  refine ⟨hi4 (s.input.read s.offset), lo4 (s.input.read s.offset), hi4_toNat _, lo4_toNat _,
    headerByte_hi4_lo4 _, readOffsets_eq_singleton he nofun nofun, headerFits_iff hlt, by omega, ?_⟩
  rw [fdStep_readHeader he hpres, apply_ite (exec · s)]
  exact if_congr (headerFits_iff hlt) rfl rfl

/-! ### A frame cut short -/

/-- What the two preamble bytes of a frame leave (R130, R131): a candidate at the cursor, with its header next. -/
def State.takePreamble (s : State) : State :=
  { s with
    pstate := .readHeader
    offset := s.offset + 2
    fstart := s.offset
    sum := add8 Config.preambleHi Config.preambleLo }

/-- FD alone in SPH passes the preamble in two steps. -/
theorem runSteps_preamble (hr : s.phase = .run) (hp : s.pstate = .seekPreambleHigh)
    (ha : s.host = [] ∧ s.present = true) (hin : s.input.holds s.offset [Config.preambleHi, Config.preambleLo] = true)
    (hfit : s.offset + 2 ≤ s.length) : runSteps 2 s = .next s.takePreamble := by
  obtain ⟨hhi, hlo⟩ :
      s.input.read s.offset = Config.preambleHi ∧ s.input.read (s.offset + 1) = Config.preambleLo := by
    simpa [Memory.holds] using hin
  have hmatch := ScanStep.sphMatch ⟨hr, hp, by omega⟩ hhi
  have hlock := ScanStep.splMatch (s := (s.beginFrame.goto .seekPreambleLow).advance 1) ⟨hr, rfl, hfit⟩ hlo
  exact (hmatch.runSteps_succ_eq ha 1).trans (hlock.runSteps_succ_eq (hmatch.keeps_alone ha) 0)

/-- FD alone, from the start of a scan, comes to RH on a preamble after bytes without 0x44. -/
theorem runSteps_lead_preamble (hr : s.phase = .run) (hp : s.pstate = .seekPreambleHigh)
    (ha : s.host = [] ∧ s.present = true) (hlead : ∀ b ∈ lead, b ≠ Config.preambleHi)
    (hin : s.input.holds s.offset (lead ++ [Config.preambleHi, Config.preambleLo]) = true)
    (hfit : s.offset + lead.length + 2 ≤ s.length) :
    runSteps (lead.length + 2) s = .next (s.advance lead.length).takePreamble := by
  obtain ⟨hinLead, hinPreamble⟩ := Memory.holds_append.mp hin
  exact runSteps_add (runSteps_skip hr hp ha hlead hinLead (by omega)) (runSteps_preamble hr hp ha hinPreamble hfit)

/-- In RH a scan ends where it stands if the buffer ends before the header, or by RH.UNDERFLOW if the rest of the frame
does not fit (R143, R145). -/
theorem exists_scanEnd_of_short (hr : s.phase = .run) (hp : s.pstate = .readHeader)
    (ha : s.host = [] ∧ s.present = true)
    (hshort : s.offset < s.length → ¬ headerFits s.length s.offset (hi4 (s.input.read s.offset))) :
    ∃ k t, runSteps k s = .next t ∧ t.phase = .run ∧ t.pstate = .readHeader ∧ ¬ t.scanning ∧ t.host = [] := by
  obtain ⟨hh, hpres⟩ := ha
  by_cases hlt : s.offset < s.length
  · have hunder := ScanStep.rhUnderflow ⟨hr, hp, hlt⟩ (hshort hlt)
    exact ⟨1, _, hunder.runSteps_succ_eq ⟨hh, hpres⟩ 0, hr, hp, not_scanning_abortScan _, hh⟩
  · exact ⟨0, s, rfl, hr, hp, fun ⟨_, hlt'⟩ => hlt hlt', hh⟩

/-- A cut behind the preamble leaves the two preamble bytes, and the header byte too unless it falls right there. -/
theorem Memory.holds_take_frameBytes {m : Memory} {a cut : Nat} (hcut : 2 ≤ cut)
    (h : m.holds a ((frameBytes ident payload).take cut) = true) :
    m.holds a [Config.preambleHi, Config.preambleLo] = true ∧
      (2 < cut → m.read (a + 2) = headerByte (payloadLength payload) ident) := by
  obtain ⟨n, rfl⟩ := Nat.exists_eq_add_of_le' hcut
  cases n with
  | zero => exact ⟨h, nofun⟩
  | succ n =>
    obtain ⟨hhi, hlo, hhead, -⟩ : m.read a = Config.preambleHi ∧ m.read (a + 1) = Config.preambleLo ∧
        m.read (a + 2) = headerByte (payloadLength payload) ident ∧ _ := by
      simpa [frameBytes, holds] using h
    exact ⟨by simp [holds, hhi, hlo], fun _ => hhead⟩

/-- A scan of bytes without 0x44 and a frame cut behind its preamble, both up to LENGTH, ends in RH: the checksum byte
lies at LENGTH or above. -/
theorem exists_scanEnd_of_cutFrame {cut : Nat} (hr : s.phase = .run) (hp : s.pstate = .seekPreambleHigh)
    (ha : s.host = [] ∧ s.present = true) (hlead : ∀ b ∈ lead, b ≠ Config.preambleHi)
    (hn : payload.length ≤ Config.capacity) (hcut : 2 ≤ cut) (hshort : cut ≤ 3 + payload.length)
    (hin : s.input.holds s.offset (lead ++ (frameBytes ident payload).take cut) = true)
    (hlen : s.length = s.offset + lead.length + cut) :
    ∃ k t, runSteps k s = .next t ∧ t.phase = .run ∧ t.pstate = .readHeader ∧ ¬ t.scanning ∧ t.host = [] := by
  obtain ⟨hinLead, hinCut⟩ := Memory.holds_append.mp hin
  obtain ⟨hinPreamble, hhead⟩ := Memory.holds_take_frameBytes hcut hinCut
  have hrun := runSteps_lead_preamble hr hp ha hlead (Memory.holds_append.mpr ⟨hinLead, hinPreamble⟩) (by omega)
  have hunfit : s.offset + lead.length + 2 < s.length →
      ¬ headerFits s.length (s.offset + lead.length + 2) (hi4 (s.input.read (s.offset + lead.length + 2))) := by
    intro hlt
    rw [hhead (by omega), hi4_headerByte, headerFits_iff hlt, payloadLength_toNat hn]
    omega
  obtain ⟨k, t, hrun', hend⟩ := exists_scanEnd_of_short (s := (s.advance lead.length).takePreamble) hr rfl ha hunfit
  exact ⟨_, t, runSteps_add hrun hrun', hend⟩

/-- Settles O45: a buffer shorter than the shortest frame fails the entry check; any other holds the preamble, and its
scan ends in RH, from which FINALISE derives NotEnoughData. -/
theorem truncationGivesNotEnoughData : Obligations.TruncationGivesNotEnoughData := by
  intro s lead payload ident cut hr hlead hn hshort hpre hin
  by_cases hmin : Config.minFrame ≤ lead.length + cut
  · have hcut : 2 ≤ cut := by
      obtain rfl | hcut := hpre
      · simp only [Config.minFrame, List.length_nil] at hmin
        omega
      · exact hcut
    obtain ⟨k, t, hrun, htr, htp, hts, hth⟩ :=
      exists_scanEnd_of_cutFrame (s := ((s.withHost []).latchOperands true (lead.length + cut)).startScan)
        rfl rfl ⟨rfl, rfl⟩ hlead hn hcut hshort hin (by simp)
    refine ⟨_, operationEnds_of_scanEnd hr hmin hrun htr hts hth, ?_⟩
    rw [htp]
    rfl
  · exact ⟨_, operationEnds_of_entryFails hr (.inr (Nat.lt_of_not_le hmin)), rfl⟩

end Sys2Proof.Machine
end

section
/-! The payload accumulator (R150 to R155): what RP.COPY leaves, and that an accepted header leads to the checksum. -/

namespace Sys2Proof.Machine

variable {s : State}

/-- The running sum is the left fold of the wrapping addition (R150, D12). -/
theorem addBytes_eq_foldl (sum : Byte) (bytes : List Byte) : addBytes sum bytes = bytes.foldl (· + ·) sum := by
  induction bytes generalizing sum with
  | nil => rfl
  | cons b rest ih => exact ih (sum + b)

/-- RP.COPY writes the cells of `storePayload`, SUM, the cursor and PSTATE, and nothing else (R150 to R153). -/
theorem execRpCopy_eq {data : List Byte} (he : s.scanEnabled .readPayload)
    (hn : data.length = s.dataLength.toNat) :
    execRpCopy data s =
      .next { s with
        payload := storePayload s.payload 0 data
        sum := data.foldl (· + ·) s.sum
        offset := s.offset + s.dataLength.toNat
        pstate := .readChecksum } := by
  rw [execRpCopy_of_enabled he hn, hn, ← addBytes_eq_foldl]
  simp only [State.copyPayload, State.addToSum, State.goto, State.advance, clampLength_eq]

/-- In RP FD reads the offsets of the payload (R150). -/
theorem mem_readOffsets_of_readPayload {a : Nat} (he : s.scanEnabled .readPayload) :
    a ∈ s.readOffsets ↔ s.offset ≤ a ∧ a < s.offset + s.dataLength.toNat := by
  rw [readOffsets_of_readPayload he, List.mem_range'_1]

/-- Settles O12: `storePayload` leaves in PAYLOAD the cells named, and FD's operand is the bytes it reads in RP. -/
theorem readPayloadStep : Obligations.ReadPayloadStep := by
  intro s he
  refine ⟨fun data hn => ⟨storePayload s.payload 0 data, fun k => ?_, execRpCopy_eq he hn⟩, fun hpres hfit => ?_⟩
  · simp [storePayload_getElem]
  · refine fdStep_readPayload he fun a ha => ⟨hpres, ?_⟩
    obtain ⟨-, hlt⟩ := (mem_readOffsets_of_readPayload he).mp ha
    exact hlt.trans_le hfit

/-- Settles O50: the checksum byte lies in the buffer behind the payload, so RP.COPY reads below it and leaves the
cursor on it. -/
theorem acceptedFrameReachesChecksum : Obligations.AcceptedFrameReachesChecksum := by
  intro s t hi hh hr hp hstep
  obtain ⟨hoff, hfit⟩ : s.offset = s.fstart + 3 ∧ s.offset + s.dataLength.toNat + 1 ≤ s.length := by
    simpa only [cursorPlace, hp] using hi.cursorPlace hr
  have he : s.scanEnabled .readPayload := ⟨hr, hp, by omega⟩
  have hreads : ∀ a ∈ s.readOffsets, a + 1 < s.length := by
    intro a ha
    obtain ⟨-, hlt⟩ := (mem_readOffsets_of_readPayload he).mp ha
    omega
  have hcopy : step s = execRpCopy ((List.range' s.offset s.dataLength.toNat).map s.input.read) s := by
    obtain ⟨hpres, -⟩ := hi hr
    exact (step_of_host_nil hh).trans
      (fdStep_readPayload he fun a ha => ⟨hpres, Nat.lt_of_succ_lt (hreads a ha)⟩)
  rw [hcopy, execRpCopy_eq he (by simp)] at hstep
  cases hstep
  exact ⟨he, by rwa [stepReads_of_hostQuiet (.inl hh)], ⟨hr, rfl, hfit⟩, congrArg (· + s.dataLength.toNat) hoff⟩

end Sys2Proof.Machine
end

section
/-! The checksum validator (R160 to R162) and the terminal state (R163). -/

namespace Sys2Proof.Machine

variable {s t : State}

/-- Settles O28: an operation that runs after a step was led there by one of the four steps of `RunningStep`. -/
theorem sumIsTheChecksum : Obligations.SumIsTheChecksum := fun _ _ => step_keeps_sumInv

theorem execRcMismatch_of_enabled {c : Byte} (he : s.scanEnabled .readChecksum) (hc : c ≠ s.sum) :
    execRcMismatch c s = .next s.abortScan := if_pos ⟨he, hc⟩

/-- Settles O13: each row is enabled, and FD selects one by SUM, which is the checksum where the scan still runs. -/
theorem readChecksumStep : Obligations.ReadChecksumStep := by
  intro s he
  refine ⟨execRcMatch_of_enabled he rfl, fun _ hc => execRcMismatch_of_enabled he hc, fun hi hsum => ?_⟩
  have ⟨hr, hp, hlt⟩ := he
  obtain ⟨hpres, -⟩ := hi hr
  rw [fdStep_readChecksum he hpres, ← sum_of_sumInv hi hsum hr hlt (by simp [hp]) (by simp [hp])]
  split
  case isTrue hb => exact execRcMatch_of_enabled he hb
  case isFalse hb => exact execRcMismatch_of_enabled he hb

/-! ### The terminal state -/

theorem not_scanning_of_finished (hp : s.pstate = .finished) : ¬ s.scanning := fun ⟨hfin, _⟩ => hfin hp

/-- Where the scan is over every own step but FINALISE is refused (R113, log 10). -/
theorem exec_refused_of_not_scanning {i : Instr} (hs : ¬ s.scanning) (hown : ownStep i = true) (hne : i ≠ .finalise) :
    exec i s = .refused .stepNotEnabled := by
  obtain ⟨-, hrefused⟩ := exactlySelectedRowsRun s i hown
  refine hrefused fun ⟨_, hrow⟩ => ?_
  rw [State.selector_of_not_scanning hs] at hrow
  cases i with
  | finalise => exact hne rfl
  | fin | decode | frame => cases hown
  | sphMatch | sphSkip | splMatch | splMiss | rhAccept | rhUnderflow | rpCopy | rcMatch | rcMismatch => cases hrow

/-- In FIN only a DECODE moves PSTATE: FINALISE and FIN keep it, and FRAME would begin with SPH.MATCH. -/
theorem exec_keeps_finished {i : Instr} (hp : s.pstate = .finished) (h : exec i s = .next t)
    (hdec : ∀ present length, i ≠ .decode present length) : t.pstate = .finished := by
  have hno {j : Instr} {u : State} (hown : ownStep j = true) (hne : j ≠ .finalise) : exec j s ≠ .next u := by
    rw [exec_refused_of_not_scanning (not_scanning_of_finished hp) hown hne]
    exact nofun
  cases i with
  | fin =>
    obtain ⟨-, rfl⟩ := execFin_next h
    exact hp
  | finalise =>
    obtain ⟨-, rfl⟩ := execFinalise_next h
    exact hp
  | decode present length => exact absurd rfl (hdec present length)
  | frame =>
    obtain ⟨_, _, _, _, hmatch, -⟩ := execFrame_next h
    exact absurd hmatch (hno (j := .sphMatch) rfl nofun)
  | sphMatch | sphSkip | splMatch | splMiss | rhAccept | rhUnderflow | rpCopy | rcMatch | rcMismatch =>
    exact absurd h (hno rfl nofun)

/-- Settles O14: in FIN the scan is over, whatever OFFSET is. -/
theorem finishedIsTerminal : Obligations.FinishedIsTerminal := by
  intro s hp
  have hns := not_scanning_of_finished hp
  exact ⟨State.readOffsets_of_not_scanning hns,
    fun hr => (fdStep_of_not_scanning hr hns).trans (if_pos ⟨hr, .inl hp⟩).symm,
    fun _ => exec_refused_of_not_scanning hns, fun _ _ => exec_keeps_finished hp⟩

end Sys2Proof.Machine
end

section
/-! A corrupted frame (R164, R165): any other checksum byte aborts the scan in RC, and a changed payload byte has
another checksum. -/

namespace Sys2Proof.Machine

variable {s : State} {lead payload : List Byte} {ident : Nibble} {c : Byte}

/-! ### The checksum of a changed payload -/

/-- Two running sums that differ still differ after the same bytes (R161). -/
theorem addBytes_left_inj {a b : Byte} (bytes : List Byte) : addBytes a bytes = addBytes b bytes ↔ a = b := by
  rw [addBytes_eq_add a, addBytes_eq_add b, add_left_inj]

/-- A change of one byte changes the running sum. -/
theorem addBytes_set_ne {k : Nat} (hk : k < payload.length) {v : Byte} (hv : v ≠ payload[k]) :
    addBytes c (payload.set k v) ≠ addBytes c payload := by
  induction payload generalizing c k with
  | nil => cases hk
  | cons b rest ih =>
    cases k with
    | zero => exact fun h => hv (add_left_cancel ((addBytes_left_inj rest).mp h))
    | succ k => exact ih (Nat.lt_of_succ_lt_succ hk) hv

@[simp] theorem payloadLength_set (k : Nat) (v : Byte) : payloadLength (payload.set k v) = payloadLength payload := by
  rw [payloadLength, payloadLength, List.length_set]

/-- A change of one payload byte changes the checksum of the frame, as the header stays (R165). -/
theorem frameChecksum_set_ne {k : Nat} (hk : k < payload.length) {v : Byte} (hv : v ≠ payload[k]) :
    frameChecksum ident (payload.set k v) ≠ frameChecksum ident payload := by
  rw [frameChecksum, payloadLength_set]
  exact addBytes_set_ne hk hv

/-! ### The scan of a frame with another checksum byte -/

/-- What a header and its payload leave in RH (R140, R150): both passed, in SUM and in the registers. -/
def State.takeBody (s : State) (ident : Nibble) (payload : List Byte) : State :=
  { s with
    pstate := .readChecksum
    offset := s.offset + 1 + payload.length
    sum := addBytes (add8 s.sum (headerByte (payloadLength payload) ident)) payload
    identifier := ident
    dataLength := payloadLength payload
    payload := storePayload s.payload 0 payload }

/-- FD alone in RH passes a header and its payload in two steps, where a checksum byte follows below LENGTH. -/
theorem runSteps_body (hr : s.phase = .run) (hp : s.pstate = .readHeader) (ha : s.host = [] ∧ s.present = true)
    (hn : payload.length ≤ Config.capacity)
    (hin : s.input.holds s.offset (headerByte (payloadLength payload) ident :: payload) = true)
    (hfit : s.offset + payload.length + 2 ≤ s.length) : runSteps 2 s = .next (s.takeBody ident payload) := by
  have hlen := payloadLength_toNat hn
  obtain ⟨hhead, hdata⟩ : s.input.read s.offset = headerByte (payloadLength payload) ident ∧
      s.input.holds (s.offset + 1) payload = true := by simpa [Memory.holds] using hin
  have haccept : ScanStep s (s.input.read s.offset)
      (((s.latchHeader (payloadLength payload) ident).goto .readPayload).advance 1) := by
    have hfits : headerFits s.length s.offset (hi4 (s.input.read s.offset)) := by
      rw [hhead, hi4_headerByte, headerFits_iff (by omega), hlen]
      exact hfit
    simpa [hhead] using ScanStep.rhAccept ⟨hr, hp, by omega⟩ hfits
  have hcopy := ScanStep.rpCopy
    (s := ((s.latchHeader (payloadLength payload) ident).goto .readPayload).advance 1)
    (b := s.input.read (s.offset + 1)) ⟨hr, rfl, by simp; omega⟩ payload
    (by simpa [hlen] using (Memory.map_read_of_holds hdata).symm) (by simp [hlen]; omega)
  rw [haccept.runSteps_succ_eq ha, hcopy.runSteps_succ_eq (haccept.keeps_alone ha)]
  simp [runSteps, State.takeBody, State.latchHeader, State.copyPayload, State.addToSum, State.goto, State.advance]

/-- FD alone, from the start of a scan, aborts in RC on a frame with another checksum byte after bytes without 0x44. -/
theorem runSteps_lead_wrongChecksum (hr : s.phase = .run) (hp : s.pstate = .seekPreambleHigh)
    (ha : s.host = [] ∧ s.present = true) (hlead : ∀ b ∈ lead, b ≠ Config.preambleHi)
    (hn : payload.length ≤ Config.capacity) (hc : c ≠ frameChecksum ident payload)
    (hin : s.input.holds s.offset (lead ++ [Config.preambleHi, Config.preambleLo,
      headerByte (payloadLength payload) ident] ++ payload ++ [c]) = true)
    (hfit : s.offset + lead.length + 4 + payload.length ≤ s.length) :
    runSteps (lead.length + 2 + 2 + 1) s =
      .next ((s.advance lead.length).takePreamble.takeBody ident payload).abortScan := by
  obtain ⟨hinPreamble, hinBody, hlast⟩ :
      s.input.holds s.offset (lead ++ [Config.preambleHi, Config.preambleLo]) = true ∧
      s.input.holds (s.offset + lead.length + 2) (headerByte (payloadLength payload) ident :: payload) = true ∧
      s.input.read (s.offset + lead.length + 2 + 1 + payload.length) = c := by
    simpa [Memory.holds, Memory.holds_append, Nat.add_assoc, and_assoc] using hin
  have hpreamble := runSteps_lead_preamble hr hp ha hlead hinPreamble (by omega)
  have hbody := runSteps_body (s := (s.advance lead.length).takePreamble) hr rfl ha hn hinBody
    (show s.offset + lead.length + 2 + payload.length + 2 ≤ s.length by omega)
  refine runSteps_add (runSteps_add hpreamble hbody) ?_
  have habort := ScanStep.rcMismatch (s := (s.advance lead.length).takePreamble.takeBody ident payload)
    (b := s.input.read (s.offset + lead.length + 2 + 1 + payload.length))
    ⟨hr, rfl, show s.offset + lead.length + 2 + 1 + payload.length < s.length by omega⟩ (hlast ▸ hc)
  exact habort.runSteps_succ_eq ha 0

/-- The operation on such a frame ends with WrongChecksum (R164). -/
theorem exists_operationEnds_wrongChecksum {length : Nat} (hr : s.phase ≠ .run)
    (hlead : ∀ b ∈ lead, b ≠ Config.preambleHi) (hn : payload.length ≤ Config.capacity)
    (hfit : lead.length + 4 + payload.length ≤ length) (hc : c ≠ frameChecksum ident payload)
    (hin : s.input.holds 0 (lead ++ [Config.preambleHi, Config.preambleLo,
      headerByte (payloadLength payload) ident] ++ payload ++ [c]) = true) :
    ∃ t, operationEnds s true length t ∧ t.outcome = .wrongChecksum := by
  have hrun := runSteps_lead_wrongChecksum (s := ((s.withHost []).latchOperands true length).startScan)
    rfl rfl ⟨rfl, rfl⟩ hlead hn hc hin (by simpa using hfit)
  have hmin : Config.minFrame ≤ length := by
    simp only [Config.minFrame]
    omega
  exact ⟨_, operationEnds_of_scanEnd hr hmin hrun rfl (not_scanning_abortScan _) rfl, rfl⟩

/-- Settles O44: a frame with a changed payload byte is a frame whose checksum byte is another one. -/
theorem corruptionGivesWrongChecksum : Obligations.CorruptionGivesWrongChecksum := by
  intro s lead payload ident length hr hlead hn hfit
  refine ⟨fun c hc hin => exists_operationEnds_wrongChecksum hr hlead hn hfit hc hin, fun k hk v hv hin => ?_⟩
  rw [← payloadLength_set k v] at hin
  exact exists_operationEnds_wrongChecksum hr hlead (by rwa [List.length_set]) (by rwa [List.length_set])
    (frameChecksum_set_ne hk hv).symm hin

end Sys2Proof.Machine
end

section
/-! The outcome of an operation (R170 to R175): what FINALISE derives, what the host reads of the frame after it, and
that a machine which is done rests. -/

namespace Sys2Proof.Machine

variable {s t : State}

/-! ### What FINALISE derives -/

theorem execFinalise_of_enabled (he : s.finaliseEnabled) :
    execFinalise s = .next (s.raiseOutcome (deriveOutcome s.pstate s.dataLength)) := if_pos he

/-- Where FINALISE is enabled no scanning step is (R113). -/
theorem State.finaliseEnabled.not_scanning (he : s.finaliseEnabled) : ¬ s.scanning := by
  rintro ⟨hfin, hlt⟩
  obtain ⟨-, hp | hle⟩ := he
  · exact hfin hp
  · exact absurd hlt hle.not_gt

/-- Settles O16: FD takes FINALISE where no scanning step is enabled, and the outcome is `deriveOutcome` of PSTATE. -/
theorem finaliseDerivesOutcome : Obligations.FinaliseDerivesOutcome := by
  intro s hr hend
  have he : s.finaliseEnabled := ⟨hr, hend⟩
  have hexec := execFinalise_of_enabled he
  have hderive {o : FrameOutcome} (ho : deriveOutcome s.pstate s.dataLength = o) :
      exec .finalise s = .next { s with outcome := o, phase := .done } := ho ▸ hexec
  refine ⟨(fdStep_of_not_scanning hr he.not_scanning).trans hexec.symm, ?_, ?_, fun hp => ?_, fun hp hn => ?_,
    fun hp hn => ?_⟩
  · rintro (hp | hp) <;> exact hderive (by rw [hp, deriveOutcome])
  · rintro (hp | hp) <;> exact hderive (by rw [hp, deriveOutcome])
  · exact hderive (by rw [hp, deriveOutcome])
  · exact hderive (by rw [hp, deriveOutcome, if_pos hn])
  · exact hderive (by rw [hp, deriveOutcome, if_neg hn.not_gt])

/-! ### What the host reads of the frame -/

theorem framedOutcome_iff {o : FrameOutcome} : framedOutcome o = true ↔ o = .ok ∨ o = .messageEmpty := by
  cases o <;> simp [framedOutcome]

theorem deriveOutcome_eq_ok_iff {p : PState} {n : Nibble} : deriveOutcome p n = .ok ↔ p = .finished ∧ 0 < n.toNat := by
  cases p with
  | finished => by_cases hn : 0 < n.toNat <;> simp [deriveOutcome, hn]
  | seekPreambleHigh | seekPreambleLow | readHeader | readPayload | readChecksum => simp [deriveOutcome]

theorem deriveOutcome_eq_messageEmpty_iff {p : PState} {n : Nibble} :
    deriveOutcome p n = .messageEmpty ↔ p = .finished ∧ n.toNat = 0 := by
  cases p with
  | finished => by_cases hn : n.toNat = 0 <;> simp [deriveOutcome, hn, Nat.pos_iff_ne_zero]
  | seekPreambleHigh | seekPreambleLow | readHeader | readPayload | readChecksum => simp [deriveOutcome]

/-- Payload cells that hold the bytes of IN from offset `a` on show the host those bytes. -/
theorem take_payload_eq_map_read {m : Memory} {a n : Nat} (hn : n ≤ Config.capacity)
    (h : ∀ k : Fin Config.capacity, k.val < n → s.payload[k] = m.read (a + k.val)) :
    s.payload.toList.take n = (List.range' a n).map m.read := by
  refine List.ext_getElem (by simpa using hn) fun k hk _ => ?_
  have hk' : k < n := by simpa [hn] using hk
  simpa using h ⟨k, hk'.trans_le hn⟩ hk'

/-- The frame that FINALISE shows the host, under an outcome that makes the fields valid, is the candidate frame in IN:
such an outcome is derived in FIN alone (R170, R173). -/
theorem hostView_finalised_of_framedOutcome (hc : candidateInv s) (hr : s.phase = .run)
    (ho : framedOutcome (deriveOutcome s.pstate s.dataLength) = true) :
    (s.raiseOutcome (deriveOutcome s.pstate s.dataLength)).hostView =
      { busy := false, done := true, outcome := some (deriveOutcome s.pstate s.dataLength)
        identifier := some (lo4 (s.input.read (s.fstart + 2)))
        dataLength := some (hi4 (s.input.read (s.fstart + 2)))
        payload := (List.range' (s.fstart + 3) (hi4 (s.input.read (s.fstart + 2))).toNat).map s.input.read } := by
  have hp := finished_of_framedOutcome ho
  obtain ⟨-, -, hfields, hcells, -⟩ := hc hr
  obtain ⟨hid, hlen⟩ := hfields (.inr (.inr hp))
  rw [hostView_of_done rfl, ← hid, ← hlen, ← take_payload_eq_map_read (nibble_le _) (hcells (.inr hp))]
  simp [ho]

/-- The step of FD that ends an operation is FINALISE (R13, R170). -/
theorem finalised_of_fdStep (hr : s.phase = .run) (h : fdStep s = .next t) (hd : t.phase = .done) :
    t = s.raiseOutcome (deriveOutcome s.pstate s.dataLength) := by
  obtain ⟨-, ht⟩ | ⟨-, hscan⟩ := fdStep_next_cases hr h
  · exact ht
  · obtain ⟨hphase, -⟩ := hscan.keeps_operands
    cases hd.symm.trans (hphase.trans hr)

/-- Settles O31: the step is FINALISE, which gives Ok and MessageEmpty in FIN alone, where the candidate is whole. -/
theorem validFieldsDescribeTheFrame : Obligations.ValidFieldsDescribeTheFrame := by
  intro s t _ hc hr hq h hd
  rw [step_of_hostQuiet hq] at h
  obtain rfl := finalised_of_fdStep (s := s.afterPause) hr h hd
  refine ⟨by rw [hostView_of_done hd], fun ho => ?_, fun ho => ?_, fun ho => ?_, fun hok hempty => ?_⟩
  · rw [hostView_finalised_of_framedOutcome (s := s.afterPause) hc hr (framedOutcome_iff.mpr ho)]
    exact ⟨rfl, rfl, rfl⟩
  · obtain ⟨-, hpos⟩ := deriveOutcome_eq_ok_iff.mp ho
    exact ⟨hpos, nibble_le _⟩
  · obtain ⟨-, hzero⟩ := deriveOutcome_eq_messageEmpty_iff.mp ho
    exact hzero
  · have hnot := mt framedOutcome_iff.mp (not_or.mpr ⟨hok, hempty⟩)
    rw [hostView_of_done hd, Bool.eq_false_iff.mpr hnot]
    exact ⟨rfl, rfl, rfl⟩

/-! ### The machine at rest -/

/-- While no operation runs every own step of FD is refused (R113, log 10). -/
theorem exec_refused_of_not_run {i : Instr} (hr : s.phase ≠ .run) (hown : ownStep i = true) :
    exec i s = .refused .stepNotEnabled :=
  (exactlySelectedRowsRun s i hown).2 fun ⟨hrun, _⟩ => hr hrun

/-- While no operation runs no step reads IN, whatever the host does (R55, R175). -/
theorem stepReads_of_not_run (hr : s.phase ≠ .run) : stepReads s = [] := by
  refine List.eq_nil_iff_forall_not_mem.mpr fun a ha => ?_
  have hread := mem_readOffsets_of_mem_stepReads ha
  simp [State.readOffsets_of_not_run hr] at hread

/-- While no operation runs a step writes no register of FD, unless the host resets FD or issues DECODE: FD rests, and
the host stores into IN at most (R50, R175, log 6). -/
theorem exists_step_of_not_run (hr : s.phase ≠ .run) (hreset : ∀ rest, s.host ≠ .reset :: rest)
    (hdec : ∀ present length rest, s.host ≠ .decode present length :: rest) :
    ∃ m actions, step s = .next { s with input := m, host := actions } := by
  cases hh : s.host with
  | nil => exact ⟨s.input, s.host, (step_of_host_nil hh).trans (fdStep_rest hr)⟩
  | cons action rest =>
    have hstep := step_of_host_cons hh
    cases action with
    | pause => exact ⟨s.input, rest, hstep.trans (fdStep_rest (s := s.withHost rest) hr)⟩
    | reset => exact absurd hh (hreset rest)
    | decode present length => exact absurd hh (hdec present length rest)
    | writeInput a b => exact ⟨s.input.write a b, rest, hstep⟩

/-- Settles O49: no row is selected and nothing is read outside Run, and the step leaves FD's registers alone. -/
theorem doneMachineHoldsItsFrame : Obligations.DoneMachineHoldsItsFrame := by
  intro s hd
  have hr : s.phase ≠ .run := by simp [hd]
  refine ⟨fun _ => exec_refused_of_not_run hr, stepReads_of_not_run hr, fun hreset hdec => ?_⟩
  obtain ⟨m, actions, hstep⟩ := exists_step_of_not_run hr hreset hdec
  exact ⟨_, hstep, hd, rfl, rfl, rfl, rfl⟩

end Sys2Proof.Machine
end

section
/-! Progress (R180, R87, R53): neither FD nor its host has a step that faults or is refused. -/

namespace Sys2Proof.Machine

variable {s : State}

/-- FD's own step answers: a running scan has a row for the byte at the cursor (R87), FINALISE ends it, and FD rests
where no operation runs (log 6). -/
theorem exists_fdStep (hi : rangeInv s) : ∃ t, fdStep s = .next t := by
  by_cases hr : s.phase = .run
  · by_cases hs : s.scanning
    · obtain ⟨t, -, hstep⟩ := exists_fdStep_of_scanning hi hr hs
      exact ⟨t, hstep⟩
    · exact ⟨_, fdStep_of_not_scanning hr hs⟩
  · exact ⟨s, fdStep_rest hr⟩

/-- Every host action answers (log 5); of them the pause alone needs the range invariants, since it lets FD step. -/
theorem exists_hostAct (hi : rangeInv s) (action : HostAction) : ∃ t, hostAct action s = .next t := by
  cases action with
  | pause => exact exists_fdStep hi
  | reset => exact ⟨s.applyReset, rfl⟩
  | decode present length =>
    by_cases hr : s.phase = .run
    · exact ⟨s, execDecode_of_run hr⟩
    · obtain ⟨t, hdec, -⟩ := exists_execDecode hr present length
      exact ⟨t, hdec⟩
  | writeInput a b => exact ⟨s.hostWrite a b, rfl⟩

/-- Settles O27: a step is the host's oldest action, or FD's own where the host has none. -/
theorem noStepStops : Obligations.NoStepStops := by
  intro s hi
  cases hh : s.host with
  | nil => exact step_of_host_nil hh ▸ exists_fdStep hi
  | cons action rest => exact step_of_host_cons hh ▸ exists_hostAct (rangeInv_withHost rest |>.mpr hi) action

end Sys2Proof.Machine
end

section
/-! Reset (R210, R211): whatever the machine was doing, FD rests in Idle after it. -/

namespace Sys2Proof.Machine

/-- Settles O1: the reset leaves PHASE = Idle, and outside Run FD reads nothing, rests, and has no row enabled. -/
theorem resetGivesIdleMachine : Obligations.ResetGivesIdleMachine := by
  intro s rest hh
  have hr : (s.withHost rest).applyReset.phase ≠ .run := by simp
  have hd : (s.withHost rest).applyReset.phase ≠ .done := by simp
  have hview : (s.withHost rest).applyReset.hostView.outcome = none := by rw [hostView_of_not_done hd]
  exact ⟨(s.withHost rest).applyReset, step_of_host_cons hh, State.applyReset_phase _, State.applyReset_pstate _, rfl,
    rfl, hview, rfl, rfl, State.readOffsets_of_not_run hr, fdStep_rest hr, fun _ => exec_refused_of_not_run hr⟩

end Sys2Proof.Machine
end
